-- ==== Sys2Proof/Word.lean ====
section
/-! DEFINITION. The word types of the block and its two small enumerations (spec/00_scope.md R15, R16, R19). -/

namespace Sys2Proof

/-- A 32-bit word of the Register Block (R10 `REG_BITS`, R64). -/
abbrev Word := BitVec 32

/-- The 8-bit operand of the serial writers (R102). -/
abbrev Byte := BitVec 8

/-- The 6-bit pin field of a command word (R101, R102): 0 to 57 are pin identifiers, 58 to 63 are not (R90). -/
abbrev PinField := BitVec 6

/-- The 16-bit command word (R100). -/
abbrev CmdWord := BitVec 16

/-- The output latches, one bit per pin 0 to 57 (R30). -/
abbrev Latches := BitVec 58

/-- A 3-bit function-select code (R91). -/
abbrev FnCode := BitVec 3

/-- Pin Function: "one of {Input, Output}" (R16, R19). -/
inductive PinFunction where
  | input
  | output
  deriving DecidableEq, Repr

/-- Logic Level: "one of {Low, High}" (R16, R19). -/
inductive Level where
  | low
  | high
  deriving DecidableEq, Repr

/-- `bit_to_level` of R16: 0 is Low, 1 is High (decision D26). -/
def Level.ofBit : Bool → Level
  | false => .low
  | true => .high

/-- `level_to_bit` of R16, the inverse of `Level.ofBit`. -/
def Level.toBit : Level → Bool
  | .low => false
  | .high => true

end Sys2Proof
end

