-- ==== Sys2Proof/Config.lean ====
section
/-! DEFINITION. The configuration and the environment of a run (spec/00_scope.md R10 to R14), and the free values:
what the environment or the chip answers where the spec fixes nothing. -/

namespace Sys2Proof

/-- `NPINS` of R10: pins 0 to 57. -/
def npins : Nat := 58

/-- The implementation parameters of R11 to R13. The source fixes none of them; no command changes one (R51, R232).
A model "takes each as a configuration argument" (R11), so a statement ranges over all of them. -/
structure Config where
  /-- `SET_BASE_WORD`: word index of the first set register (R11 a) -/
  setBase : Nat
  /-- `CLR_BASE_WORD`: word index of the first clear register (R11 a) -/
  clrBase : Nat
  /-- `LEV_BASE_WORD`: word index of the first level register (R11 a) -/
  levBase : Nat
  /-- `FSEL_INPUT`: the code of the function Input (R11 b, R91) -/
  fselInput : FnCode
  /-- `FSEL_OUTPUT`: the code of the function Output (R11 b, R91) -/
  fselOutput : FnCode
  /-- `BLOCK_WORDS`: length of the mapped block in words (R11 c, R20) -/
  blockWords : Nat
  /-- `DELAY_UNIT` in microseconds (R11 d); a delay lasts at least this (R170) and the model counts units, not time -/
  delayUnit : Nat
  /-- `SR_EDGE_DELAY_UNITS`: delay units after each level change of the shift-register writer (R11 e, R165) -/
  srEdgeDelay : Nat
  /-- the six controlled pins (R12) -/
  pinBuzzer : Nat
  pinSrData : Nat
  pinSrShclk : Nat
  pinSrLatch : Nat
  pinDispData : Nat
  pinDispClk : Nat
  /-- `SAFE_IDLE` of each controlled pin (R13) -/
  idleBuzzer : Level
  idleSrData : Level
  idleSrShclk : Level
  idleSrLatch : Level
  idleDispData : Level
  idleDispClk : Level
  deriving DecidableEq, Repr

namespace Config

/-- `CONTROLLED_PINS` in the order of R12 (decision D7). -/
def controlledPins (c : Config) : List Nat :=
  [c.pinBuzzer, c.pinSrData, c.pinSrShclk, c.pinSrLatch, c.pinDispData, c.pinDispClk]

/-- Each controlled pin with its `SAFE_IDLE` level, in list order (R12, R13). -/
def safeIdle (c : Config) : List (Nat × Level) :=
  [(c.pinBuzzer, c.idleBuzzer), (c.pinSrData, c.idleSrData), (c.pinSrShclk, c.idleSrShclk),
   (c.pinSrLatch, c.idleSrLatch), (c.pinDispData, c.idleDispData), (c.pinDispClk, c.idleDispClk)]

/-- The word indexes of the twelve registers of R21. `FSEL_BASE_WORD` is 0 (R10). -/
def regWords (c : Config) : List Nat :=
  [0, 1, 2, 3, 4, 5, c.setBase, c.setBase + 1, c.clrBase, c.clrBase + 1, c.levBase, c.levBase + 1]

/-- The constraints a configuration must meet (R11, R12): distinct function codes, twelve distinct word indexes
inside the block, six distinct controlled pins below 32. -/
abbrev Admissible (c : Config) : Prop :=
  c.fselInput ≠ c.fselOutput ∧
  c.regWords.Nodup ∧ (∀ w ∈ c.regWords, w < c.blockWords) ∧
  c.controlledPins.Nodup ∧ (∀ p ∈ c.controlledPins, p < 32)

/-- The defaults of R11 and R13 with the pin map `CFG_EXAMPLE` of R12. PRESUMED: the spec marks these numbers as
general knowledge (G2, G3, G5, G9, G10); notes/assumptions/14 to 17 and 24. -/
def cfgExample : Config where
  setBase := 7
  clrBase := 10
  levBase := 13
  fselInput := 0b000
  fselOutput := 0b001
  blockWords := 1024
  delayUnit := 1000
  srEdgeDelay := 0
  pinBuzzer := 12
  pinSrData := 6
  pinSrShclk := 19
  pinSrLatch := 13
  pinDispData := 25
  pinDispClk := 5
  idleBuzzer := .high
  idleSrData := .low
  idleSrShclk := .low
  idleSrLatch := .low
  idleDispData := .low
  idleDispClk := .low

end Config

/-- The free value of R34: at the `n`-th draw of a run, the level the environment puts on each pad (bit `p` for
pin `p`). Used for pins that are not Output only. No body: nothing constrains it (notes/assumptions/7). -/
opaque Config.levelDraw : Nat → Latches

/-- The free value of R24 and R25: what a read of a set or clear register returns at the `n`-th draw. No command
performs such a read (notes/assumptions/8). -/
opaque Config.portDraw : Nat → Word

/-- The environment parameters of `OPEN`, fixed for one run (R14, decision D33). -/
structure Env where
  /-- `ENV_SUPPORTED` (R191) -/
  supported : Bool
  /-- `ENV_DEV_OPENABLE` (R192) -/
  devOpenable : Bool
  /-- `ENV_MAPPABLE` (R193) -/
  mappable : Bool
  deriving DecidableEq, Repr

/-- The environment in which `OPEN` succeeds. DESIGN CHOICE as the one at reset (notes/assumptions/2). -/
def Env.good : Env := ⟨true, true, true⟩

end Sys2Proof
end

