-- ==== Sys2Proof/Syntax.lean ====
section
/-! DEFINITION. The eleven commands as syntax (spec/30_encoding.md R100, spec/opcode_table.json), one constructor per
row of the table. A pin operand is the raw 6-bit field; WellFormed.lean checks that it names a pin. -/

namespace Sys2Proof

/-- The commands of R100. -/
inductive Instr where
  /-- `OPEN` (R140) -/
  | openIface
  /-- `SET_FUNCTION pin, function` (R121) -/
  | setFunction (pin : PinField) (fn : PinFunction)
  /-- `PIN_SET pin` (R124) -/
  | pinSet (pin : PinField)
  /-- `PIN_CLR pin` (R125) -/
  | pinClr (pin : PinField)
  /-- `GET_LEVEL pin` (R127) -/
  | getLevel (pin : PinField)
  /-- `INIT_PINS` (R145) -/
  | initPins
  /-- `CLOSE` (R150) -/
  | closeIface
  /-- `SR_WRITE byte` (R160) -/
  | srWrite (byte : Byte)
  /-- `DISP_START` (R171) -/
  | dispStart
  /-- `DISP_BYTE byte` (R173) -/
  | dispByte (byte : Byte)
  /-- `DISP_CMD byte` (R175) -/
  | dispCmd (byte : Byte)
  deriving DecidableEq, Repr

end Sys2Proof
end

