-- ==== Sys2Proof/WellFormed.lean ====
section
/-! DEFINITION. When a command is legal (spec/30_encoding.md R90, R103 c): a pin operand names one of the 58 pins. -/

namespace Sys2Proof

/-- The pin operand of a command, where it has one (R101 formats P, PF, PL). -/
def Instr.pin? : Instr → Option PinField
  | .openIface => none
  | .setFunction pin _ => some pin
  | .pinSet pin => some pin
  | .pinClr pin => some pin
  | .getLevel pin => some pin
  | .initPins => none
  | .closeIface => none
  | .srWrite _ => none
  | .dispStart => none
  | .dispByte _ => none
  | .dispCmd _ => none

/-- The byte operand of a command, where it has one (R101 format B). -/
def Instr.byte? : Instr → Option Byte
  | .openIface => none
  | .setFunction _ _ => none
  | .pinSet _ => none
  | .pinClr _ => none
  | .getLevel _ => none
  | .initPins => none
  | .closeIface => none
  | .srWrite byte => some byte
  | .dispStart => none
  | .dispByte byte => some byte
  | .dispCmd byte => some byte

/-- The check of R103 (c): a `pin` field above 57 names no pin. Everything else R103 asks for is a property of the
word, which the decoder checks; all 256 bytes and both functions are legal operands (R102). -/
def Instr.wellFormed (i : Instr) : Bool :=
  match i.pin? with
  | some pin => decide (pin.toNat < npins)
  | none => true

/-- `Instr.wellFormed` as a proposition. -/
abbrev Instr.WellFormed (i : Instr) : Prop := i.wellFormed = true

end Sys2Proof
end

