-- ==== Sys2Proof/Decode.lean ====
section
/-! DEFINITION. The decoder of command words, total on all 65536 of them (spec/30_encoding.md R101 to R104), and the
encoder written from the same format table. -/

namespace Sys2Proof

/-- Why a command word is illegal: the three cases of R103. -/
inductive Illegal where
  /-- (a) opcode 0x0, 0x7 or 0xC to 0xF -/
  | reservedOpcode
  /-- (b) a field that the format requires to be zero is not zero -/
  | mustBeZero
  /-- (c) a `pin` field above 57 -/
  | pinOutOfRange
  deriving DecidableEq, Repr

/-- What the decoder answers. -/
inductive Decoded where
  | legal (i : Instr)
  | illegal (why : Illegal)
  deriving DecidableEq, Repr

/-- The opcode field `cmd[15:12]` (R100). -/
def opcodeField (c : CmdWord) : BitVec 4 := c.extractLsb' 12 4

/-- The pin field `cmd[5:0]` (R102). -/
def pinField (c : CmdWord) : PinField := c.extractLsb' 0 6

/-- The byte field `cmd[7:0]` (R102). -/
def byteField (c : CmdWord) : Byte := c.extractLsb' 0 8

/-- The field `fn = cmd[6]`: 0 is Input, 1 is Output (R102). -/
def fnField (c : CmdWord) : PinFunction := if c.getLsbD 6 then .output else .input

/-- Format N: `cmd[11:0]` must be zero (R101). -/
def decodeN (c : CmdWord) (i : Instr) : Decoded :=
  if c.extractLsb' 0 12 = 0#12 then .legal i else .illegal .mustBeZero

/-- Format B: `cmd[11:8]` must be zero (R101). -/
def decodeB (c : CmdWord) (f : Byte → Instr) : Decoded :=
  if c.extractLsb' 8 4 = 0#4 then .legal (f (byteField c)) else .illegal .mustBeZero

/-- The pin check of R103 (c), for a command that has a pin. -/
def decodePin (i : Instr) : Decoded :=
  if i.wellFormed then .legal i else .illegal .pinOutOfRange

/-- Formats PF and PL: `cmd[11:7]` must be zero (R101). -/
def decodePinWithBit (c : CmdWord) (i : Instr) : Decoded :=
  if c.extractLsb' 7 5 = 0#5 then decodePin i else .illegal .mustBeZero

/-- Format P: `cmd[11:6]` must be zero (R101). -/
def decodeP (c : CmdWord) (i : Instr) : Decoded :=
  if c.extractLsb' 6 6 = 0#6 then decodePin i else .illegal .mustBeZero

/-- The decoding algorithm of R104. -/
def decode (c : CmdWord) : Decoded :=
  match (opcodeField c).toNat with
  | 0x1 => decodeN c .openIface
  | 0x2 => decodePinWithBit c (.setFunction (pinField c) (fnField c))
  | 0x3 => decodePinWithBit c (if c.getLsbD 6 then .pinSet (pinField c) else .pinClr (pinField c))
  | 0x4 => decodeP c (.getLevel (pinField c))
  | 0x5 => decodeN c .initPins
  | 0x6 => decodeN c .closeIface
  | 0x8 => decodeB c .srWrite
  | 0x9 => decodeN c .dispStart
  | 0xA => decodeB c .dispByte
  | 0xB => decodeB c .dispCmd
  | _ => .illegal .reservedOpcode

/-- The bit of the field `fn` (R102). -/
def PinFunction.bit : PinFunction → BitVec 1
  | .input => 0
  | .output => 1

/-- The word of format N (R101). -/
def encodeN (op : BitVec 4) : CmdWord := op ++ 0#12

/-- The word of format P (R101). -/
def encodeP (op : BitVec 4) (pin : PinField) : CmdWord := op ++ 0#6 ++ pin

/-- The word of formats PF and PL (R101), `q` being `cmd[6]`. -/
def encodePinWithBit (op : BitVec 4) (q : BitVec 1) (pin : PinField) : CmdWord := op ++ 0#5 ++ q ++ pin

/-- The word of format B (R101). -/
def encodeB (op : BitVec 4) (byte : Byte) : CmdWord := op ++ 0#4 ++ byte

/-- The encoder: the word of a command, from the tables of R100 and R101. -/
def encode : Instr → CmdWord
  | .openIface => encodeN 0x1
  | .setFunction pin fn => encodePinWithBit 0x2 fn.bit pin
  | .pinSet pin => encodePinWithBit 0x3 1 pin
  | .pinClr pin => encodePinWithBit 0x3 0 pin
  | .getLevel pin => encodeP 0x4 pin
  | .initPins => encodeN 0x5
  | .closeIface => encodeN 0x6
  | .srWrite byte => encodeB 0x8 byte
  | .dispStart => encodeN 0x9
  | .dispByte byte => encodeB 0xA byte
  | .dispCmd byte => encodeB 0xB byte

/-- The pseudo-command `SET_LEVEL pin, level`: it assembles to `PIN_SET` or `PIN_CLR` (R106, R123). -/
def setLevelCommand (pin : PinField) : Level → Instr
  | .high => .pinSet pin
  | .low => .pinClr pin

/-- The `match` value of each row of spec/opcode_table.json (R101). -/
def matchOf : Instr → CmdWord
  | .openIface => 0x1000
  | .setFunction _ _ => 0x2000
  | .pinSet _ => 0x3040
  | .pinClr _ => 0x3000
  | .getLevel _ => 0x4000
  | .initPins => 0x5000
  | .closeIface => 0x6000
  | .srWrite _ => 0x8000
  | .dispStart => 0x9000
  | .dispByte _ => 0xA000
  | .dispCmd _ => 0xB000

/-- The `mask` value of each row of spec/opcode_table.json (R101). -/
def maskOf : Instr → CmdWord
  | .openIface => 0xFFFF
  | .setFunction _ _ => 0xFF80
  | .pinSet _ => 0xFFC0
  | .pinClr _ => 0xFFC0
  | .getLevel _ => 0xFFC0
  | .initPins => 0xFFFF
  | .closeIface => 0xFFFF
  | .srWrite _ => 0xFF00
  | .dispStart => 0xFFFF
  | .dispByte _ => 0xFF00
  | .dispCmd _ => 0xFF00

/-- The instruction the decoder reads from a word of at most 16 bits (every row of the table has 16). -/
def decodeTableWord (nbits w : Nat) : Option Instr :=
  if nbits ≤ 16 ∧ w < 2 ^ nbits then
    match decode (BitVec.ofNat 16 w) with
    | .legal i => some i
    | .illegal _ => none
  else none

end Sys2Proof
end

