-- ==== Sys2Proof/Machine/State.lean ====
section
/-! DEFINITION. The state of the machine, all of it plain data (spec/10_state.md), the events of the three traces
(spec/00_scope.md R17), and the reset values (R50). -/

namespace Sys2Proof.Machine

/-- The fatal causes of `OPEN` (R36, R190). -/
inductive FatalCause where
  | unsupportedModel
  | openDeviceFailed
  | mapFailed
  deriving DecidableEq, Repr

/-- The cause codes 1, 2, 3 of R36 and R190. -/
def FatalCause.code : FatalCause → Nat
  | .unsupportedModel => 1
  | .openDeviceFailed => 2
  | .mapFailed => 3

/-- `life`, the lifecycle state of the Register Interface (R35). -/
inductive Life where
  | unopened
  | opened
  | closed
  | aborted
  deriving DecidableEq, Repr

/-- Why the block gives a command no meaning (R200): the spec's refusals, which are responses of a NEXT state. -/
inductive RefuseReason where
  /-- an illegal command word (R103) -/
  | illegalCommand
  /-- a command other than `OPEN` while the interface is not open (R201) -/
  | notOpen
  /-- `OPEN` while `life` is not `UNOPENED` (R202) -/
  | alreadyOpened
  deriving DecidableEq, Repr

/-- What the response port presents (R107). -/
inductive Response where
  | ok
  | fatal (cause : FatalCause)
  | level (l : Level)
  | refused (why : RefuseReason)
  deriving DecidableEq, Repr

/-- Events of the bus trace (R17). -/
inductive BusEvent where
  | map
  | unmap
  | busRead (w : Nat) (v : Word)
  | busWrite (w : Nat) (v : Word)
  | delay (n : Nat)
  | fatal (cause : FatalCause)
  deriving DecidableEq, Repr

/-- Events of the primitive trace (R17). -/
inductive PrimEvent where
  | setFunction (p : Nat) (f : PinFunction)
  | setLevel (p : Nat) (l : Level)
  | getLevel (p : Nat) (l : Level)
  | delay (n : Nat)
  deriving DecidableEq, Repr

/-- What the outside of the chip sees on a pin (R33). An undriven pad has no assumed level. -/
inductive Pad where
  | driven (l : Level)
  | undriven
  deriving DecidableEq, Repr

/-- Events of the pad trace (R17, R33): a pad that changed, and the delays. -/
inductive PadEvent where
  | change (p : Nat) (old new : Pad)
  | delay (n : Nat)
  deriving DecidableEq, Repr

/-- The Register Block's storage (R22, R30): the six function-select words and the 58 output latches. The set, clear
and level registers store nothing (R24 to R26). There is no byte-addressed memory (R60, R64); notes/assumptions/25. -/
structure Block where
  fsel : Vector Word 6
  olat : Latches
  deriving DecidableEq, Repr

/-- The sequencer (R40, R41). The working values "hold no value between commands": `none` is the spec's own state. -/
structure Sequencer where
  /-- the command being executed, `none` when Idle -/
  cur : Option Instr
  /-- index of the next micro-operation of `cur` -/
  upc : Nat
  /-- `opnd_pin` -/
  opndPin : Option PinField
  /-- `opnd_byte` -/
  opndByte : Option Byte
  /-- `tmp`, the value last read from the Register Block -/
  tmp : Option Word
  /-- `bit_index`, 0 to 8 -/
  bitIndex : Option Nat
  deriving DecidableEq, Repr

/-- The Idle sequencer (R41, R50). -/
def Sequencer.idle : Sequencer := ⟨none, 0, none, none, none, none⟩

/-- The whole state. -/
structure State where
  /-- arguments of the model, changed by no command (R51, R232; notes/assumptions/2) -/
  cfg : Config
  env : Env
  /-- the Register Block (R20 to R30) -/
  block : Block
  /-- the Register Interface (R35 to R37) -/
  life : Life
  fatalCause : Option FatalCause
  mapped : Bool
  /-- the sequencer (R40, R41) -/
  seq : Sequencer
  /-- `elapsed_units` (R44) -/
  elapsedUnits : Nat
  /-- the three traces, oldest event first (R17) -/
  busTrace : List BusEvent
  primTrace : List PrimEvent
  padTrace : List PadEvent
  /-- the command words the host is still to present, in issue order (R99; notes/assumptions/6) -/
  cmds : List CmdWord
  /-- the response port: the response to the last command, if it gave one (R107) -/
  response : Option Response
  /-- the mark that a refusal occurred (R200) -/
  refusedMark : Bool
  /-- the MODEL's own counter of free values read so far (notes/assumptions/7) -/
  draws : Nat
  deriving DecidableEq, Repr

/-- How a step of the model can stop with a fault. -/
inductive Fault where
  /-- raised by a micro-operation that uses `tmp` when no register read has loaded it. Only a sequencer put into the
  middle of a command by hand can be so (no command of R110 uses `tmp` before its `RegRead`). Safe: the model stops
  where no rule says anything. -/
  | noWorkingValue
  deriving DecidableEq, Repr

/-- What the model has no meaning for. The spec's own refusals (R200) are not here: they are next states. -/
inductive Refusal where
  /-- raised by exec for an instruction that has no meaning yet. Safe. -/
  | notModelled (mnemonic : String)
  /-- raised by `regRead` and `regWrite` for a word R21 does not list (R28, R66). No command of an admissible
  configuration computes such an index. Safe. -/
  | unlistedWord
  /-- raised by `regRead` and `regWrite` while nothing is mapped (R61). No command reaches them then in a state in
  which `mapped` agrees with `life` (R37). Safe. -/
  | unmappedAccess
  deriving DecidableEq, Repr

/-- The Register Block with every function field and every latch zero. DESIGN CHOICE (notes/assumptions/3): R50 gives
no power-on value and makes the block an argument of the model. -/
def Block.zero : Block := ⟨Vector.replicate 6 0, 0⟩

/-- Power-on reset (R50, R220) with its three arguments: configuration, environment, Register Block. -/
def State.powerOn (cfg : Config) (env : Env) (block : Block) : State where
  cfg := cfg
  env := env
  block := block
  life := .unopened
  fatalCause := none
  mapped := false
  seq := .idle
  elapsedUnits := 0
  busTrace := []
  primTrace := []
  padTrace := []
  cmds := []
  response := none
  refusedMark := false
  draws := 0

/-- The machine right after reset (R50), at the arguments notes/assumptions/2 and 3 name. -/
def State.reset : State := .powerOn .cfgExample .good .zero

end Sys2Proof.Machine
end

