-- ==== Sys2Proof/Machine/Flags.lean ====
section
/-! DEFINITION. There are no flags and no condition codes (spec/10_state.md R42), so no flag computation. What an
operation reports is its response (spec/30_encoding.md R107) and, where it is refused, the mark of
spec/60_exceptions.md R200; both are written here. -/

namespace Sys2Proof.Machine

/-- Present a response, or none, on the response port (R107). -/
def respond (r : Option Response) (s : State) : State := { s with response := r }

/-- Refuse a command (R200): the response, the mark, and no other change. -/
def refuse (why : RefuseReason) (s : State) : State :=
  { s with response := some (.refused why), refusedMark := true }

end Sys2Proof.Machine
end

