-- ==== Sys2Proof/Machine/Operands.lean ====
section
/-! DEFINITION. Operand forms and the register-field arithmetic (spec/30_encoding.md R90 to R97, R102). All quantities
are naturals, `/` is floor division and `%` the remainder (R96). -/

namespace Sys2Proof.Machine

/-- `register_index = pin / 10` (R93). -/
def fselIndex (p : Nat) : Nat := p / 10

/-- `bit_shift = (pin % 10) * 3` (R93). -/
def fselShift (p : Nat) : Nat := (p % 10) * 3

/-- `word_index = pin / 32` of the set, clear and level registers (R95). -/
def wordIndex (p : Nat) : Nat := p / 32

/-- `bit = pin % 32` (R95). -/
def bitInWord (p : Nat) : Nat := p % 32

/-- `1 << bit`, the one-bit pattern written to a set or clear register (R95). -/
def oneBit (p : Nat) : Word := 1#32 <<< bitInWord p

/-- The 3-bit code of a pin function (R91). -/
def fnCode (c : Config) : PinFunction → FnCode
  | .input => c.fselInput
  | .output => c.fselOutput

/-- The field update `(v & ~(0b111 << s)) | (code << s)` on 32-bit words (R94). -/
def updateField (v : Word) (s : Nat) (code : FnCode) : Word :=
  (v &&& ~~~(0b111#32 <<< s)) ||| (code.setWidth 32 <<< s)

/-- The 3-bit field of `v` at bits `s+2 : s` (R22). -/
def fieldAt (v : Word) (s : Nat) : FnCode := v.extractLsb' s 3

/-- The word index a function-select access of pin `p` uses, `FSEL_BASE_WORD` being 0 (R93). -/
def fselWord (p : Nat) : Nat := fselIndex p

/-- The word index of the register that drives pin `p` to level `l`: a set register for High, a clear register for
Low (R92, R95, R123). -/
def levelWord (c : Config) (p : Nat) : Level → Nat
  | .high => c.setBase + wordIndex p
  | .low => c.clrBase + wordIndex p

/-- The word index of the level register of pin `p` (R95). -/
def levWord (c : Config) (p : Nat) : Nat := c.levBase + wordIndex p

/-- The level bit `i` of an operand byte asks for: `bit_to_level((byte >> i) & 1)` (R112, R160, R173). -/
def bitLevel (byte : Byte) (i : Nat) : Level := Level.ofBit (byte.getLsbD i)

end Sys2Proof.Machine
end

