-- ==== Sys2Proof/Machine/Ops.lean ====
section
/-! DEFINITION. The named operations over the machine: the Register Block's reads and writes (spec/10_state.md
sections 1 and 2, spec/20_memory.md), the micro-operations (spec/30_encoding.md R110), taking the one exception there
is (spec/60_exceptions.md R194), and running one command to completion (R99, R203). -/

namespace Sys2Proof.Machine

/-! ### The register map -/

/-- The twelve registers (R21). -/
inductive Reg where
  | fsel (n : Fin 6)
  | set (n : Fin 2)
  | clr (n : Fin 2)
  | lev (n : Fin 2)
  deriving DecidableEq, Repr

/-- The register at a word index, if R21 lists one there. -/
def regOf (c : Config) (w : Nat) : Option Reg :=
  if c.blockWords ≤ w then none
  else if h : w < 6 then some (.fsel ⟨w, h⟩)
  else if w = c.setBase then some (.set 0)
  else if w = c.setBase + 1 then some (.set 1)
  else if w = c.clrBase then some (.clr 0)
  else if w = c.clrBase + 1 then some (.clr 1)
  else if w = c.levBase then some (.lev 0)
  else if w = c.levBase + 1 then some (.lev 1)
  else none

/-! ### Pins -/

/-- The bits of GPFSELn that hold a pin's field: 29:0, and 23:0 in GPFSEL5 (R23). The others are reserved. -/
def fselMask (n : Nat) : Word := if n = 5 then 0x00FFFFFF else 0x3FFFFFFF

/-- GPFSELn as a read returns it: reserved bits zero (R22, R23). -/
def Block.fselWord (b : Block) (n : Nat) : Word :=
  if h : n < 6 then b.fsel[n] &&& fselMask n else 0

/-- `FSEL(p)`, the function field of pin `p` (R22). -/
def Block.field (b : Block) (p : Nat) : FnCode := fieldAt (b.fselWord (fselIndex p)) (fselShift p)

/-- `fn(p) = Output` (R31), for one of the 58 pins. -/
def Block.isOutput (c : Config) (b : Block) (p : Nat) : Bool :=
  decide (p < npins) && decide (b.field p = c.fselOutput)

/-- `olat[p]` as a level (R30). -/
def Block.latch (b : Block) (p : Nat) : Level := Level.ofBit (b.olat.getLsbD p)

/-- `pad(p)` (R33): driven by the latch while the function is Output, undriven while it is Input or any of the six
unnamed codes (R31). -/
def Block.pad (c : Config) (b : Block) (p : Nat) : Pad :=
  if b.isOutput c p then .driven (b.latch p) else .undriven

/-- `lev(p)` at the `n`-th draw (R32): the latch of an Output pin, the environment's level otherwise (R34). -/
def Block.lev (c : Config) (b : Block) (n p : Nat) : Level :=
  if b.isOutput c p then b.latch p else Level.ofBit ((Config.levelDraw n).getLsbD p)

/-- The latch bits that a value written to set or clear word `n` names (R24, R25, R27): bit `i` is pin `32n + i`, and
bits that name no pin are dropped. -/
def latchBits (n : Nat) (v : Word) : Latches := v.setWidth 58 <<< (32 * n)

/-- The word GPLEVn reads as (R26): bit `i` is the level of pin `32n + i`, zero where there is no pin (R27). -/
def Block.levelWord (c : Config) (b : Block) (d n : Nat) : Word :=
  BitVec.ofFnLE fun i : Fin 32 => decide (32 * n + i.val < npins) && (b.lev c d (32 * n + i.val)).toBit

/-! ### Reads and writes of the Register Block -/

/-- The value a read of a register returns at draw `d` (R62). -/
def Block.read (c : Config) (b : Block) (d : Nat) : Reg → Word
  | .fsel n => b.fselWord n
  | .set _ => Config.portDraw d
  | .clr _ => Config.portDraw d
  | .lev n => b.levelWord c d n

/-- Whether a read of the register uses a free value. -/
def Reg.drawn : Reg → Bool
  | .fsel _ => false
  | .set _ => true
  | .clr _ => true
  | .lev _ => true

/-- The Register Block after a write (R63): storage for GPFSELn with reserved bits forced to zero, write-1-to-set and
write-1-to-clear on the latches, nothing for GPLEVn. -/
def Block.write (b : Block) (r : Reg) (v : Word) : Block :=
  match r with
  | .fsel n => { b with fsel := b.fsel.set n (v &&& fselMask n) }
  | .set n => { b with olat := b.olat ||| latchBits n v }
  | .clr n => { b with olat := b.olat &&& ~~~(latchBits n v) }
  | .lev _ => b

/-- The pads that differ between two Register Blocks, in pin order (R17, R33; notes/assumptions/12). -/
def padChanges (c : Config) (old new : Block) : List PadEvent :=
  (List.range npins).filterMap fun p =>
    if old.pad c p = new.pad c p then none else some (.change p (old.pad c p) (new.pad c p))

/-- Go on with the next state, or stop as the first part did. -/
def andThen (r : Host.Outcome State Fault Refusal) (f : State → Host.Outcome State Fault Refusal) :
    Host.Outcome State Fault Refusal :=
  match r with
  | .next s => f s
  | .fault e => .fault e
  | .refused e => .refused e

/-- `RegRead(w)` (R62). The value read goes to `tmp`; the read changes neither `fsel` nor `olat`. -/
def regRead (w : Nat) (s : State) : Host.Outcome State Fault Refusal :=
  if s.mapped then
    match regOf s.cfg w with
    | none => .refused .unlistedWord
    | some r =>
      let v := s.block.read s.cfg s.draws r
      .next { s with
        seq := { s.seq with tmp := some v }
        busTrace := s.busTrace ++ [.busRead w v]
        draws := if r.drawn then s.draws + 1 else s.draws }
  else .refused .unmappedAccess

/-- `RegWrite(w, v)` (R63), with the pad changes it causes (R33). -/
def regWrite (w : Nat) (v : Word) (s : State) : Host.Outcome State Fault Refusal :=
  if s.mapped then
    match regOf s.cfg w with
    | none => .refused .unlistedWord
    | some r =>
      let b := s.block.write r v
      .next { s with
        block := b
        busTrace := s.busTrace ++ [.busWrite w v]
        padTrace := s.padTrace ++ padChanges s.cfg s.block b }
  else .refused .unmappedAccess

/-- `Delay(n)` (R170): an event in all three traces (R17) and `n` more elapsed units. -/
def delay (n : Nat) (s : State) : State :=
  { s with
    elapsedUnits := s.elapsedUnits + n
    busTrace := s.busTrace ++ [.delay n]
    primTrace := s.primTrace ++ [.delay n]
    padTrace := s.padTrace ++ [.delay n] }

/-- `Map` (R140): the region is mapped, the interface is open, `OPEN` responds Ok. -/
def mapBlock (s : State) : State :=
  { s with mapped := true, life := .opened, busTrace := s.busTrace ++ [.map], response := some .ok }

/-- `Unmap` (R150): the mapping is released and the interface is closed. -/
def unmapBlock (s : State) : State :=
  { s with mapped := false, life := .closed, busTrace := s.busTrace ++ [.unmap] }

/-! ### The exception -/

/-- TAKING THE EXCEPTION, `raise Fatal(cause)` (R194): `fatal_cause <- cause`, `life <- ABORTED`, the event and the
response, "this and only this". Nothing is saved, no mode changes, there is no vector and no handler. There is NO
RETURN from it (R196): `ABORTED` is terminal until process start. -/
def raiseFatal (cause : FatalCause) (s : State) : State :=
  { s with
    fatalCause := some cause
    life := .aborted
    busTrace := s.busTrace ++ [.fatal cause]
    response := some (.fatal cause) }

/-- Process start (R50, R220): the Register Interface and the sequencer are reset, the Register Block is not touched.
It is the host's act, no command; the new process has issued no command yet, and free values go on being fresh.
R14 fixes the environment for one run only and a run begins here (R225), so the new run's environment is an argument.
DESIGN CHOICE (notes/assumptions/27): the configuration stays, which the spec says is fixed before process start (R232)
without saying whether the next process may have another. -/
def State.processStart (env : Env) (s : State) : State :=
  { State.powerOn s.cfg env s.block with draws := s.draws }

/-! ### Micro-operations -/

/-- The value a `RegWrite` writes (R110): fixed by the command, or the field update of `SET_FUNCTION`, which depends
on the value the preceding `RegRead` returned (R94, R121). -/
inductive WriteValue where
  | word (v : Word)
  | field (shift : Nat) (code : FnCode)
  deriving DecidableEq, Repr

/-- The micro-operations of R110. -/
inductive MicroOp where
  | regRead (w : Nat)
  | regWrite (w : Nat) (v : WriteValue)
  | delay (n : Nat)
  | map
  | unmap
  | abort (cause : FatalCause)
  deriving DecidableEq, Repr

/-- The primitive that a micro-operation completes, for the primitive trace (R17). -/
inductive Completes where
  | setFunction (p : Nat) (f : PinFunction)
  | setLevel (p : Nat) (l : Level)
  | getLevel (p : Nat)
  deriving DecidableEq, Repr

/-- One entry of a command's expansion: the micro-operation, the value `bit_index` has while it is performed (R40),
and the primitive it completes. -/
structure Micro where
  op : MicroOp
  bit : Option Nat
  completes : Option Completes
  deriving DecidableEq, Repr

/-- Perform the micro-operation proper. -/
def doOp (op : MicroOp) (s : State) : Host.Outcome State Fault Refusal :=
  match op with
  | .regRead w => regRead w s
  | .regWrite w (.word v) => regWrite w v s
  | .regWrite w (.field shift code) =>
    match s.seq.tmp with
    | some v => regWrite w (updateField v shift code) s
    | none => .fault .noWorkingValue
  | .delay n => .next (delay n s)
  | .map => .next (mapBlock s)
  | .unmap => .next (unmapBlock s)
  | .abort cause => .next (raiseFatal cause s)

/-- Record in the primitive trace the primitive just completed. `GET_LEVEL` finds its level in the word just read:
"High if that bit is set, Low otherwise" (R92, R127), and responds with it (R107). -/
def complete (c : Option Completes) (s : State) : Host.Outcome State Fault Refusal :=
  match c with
  | none => .next s
  | some (.setFunction p f) => .next { s with primTrace := s.primTrace ++ [.setFunction p f] }
  | some (.setLevel p l) => .next { s with primTrace := s.primTrace ++ [.setLevel p l] }
  | some (.getLevel p) =>
    match s.seq.tmp with
    | some v =>
      let l := Level.ofBit (v.getLsbD (bitInWord p))
      .next { s with primTrace := s.primTrace ++ [.getLevel p l], response := some (.level l) }
    | none => .fault .noWorkingValue

/-- `bit_index` while a micro-operation is performed (R40). -/
def setBitIndex (i : Option Nat) (s : State) : State := { s with seq := { s.seq with bitIndex := i } }

/-- `upc <- upc + 1` (R41). -/
def advance (s : State) : State := { s with seq := { s.seq with upc := s.seq.upc + 1 } }

/-- One micro-operation at index `upc` (R41): it takes its full effect before the next begins (R72). -/
def perform (m : Micro) (s : State) : Host.Outcome State Fault Refusal :=
  andThen (doOp m.op (setBitIndex m.bit s)) fun t =>
  andThen (complete m.completes t) fun u => .next (advance u)

/-- The micro-operations of an expansion, one after another in order (R72, R110). -/
def performAll : List Micro → State → Host.Outcome State Fault Refusal
  | [], s => .next s
  | m :: ms, s => andThen (perform m s) (performAll ms)

/-! ### The primitives as micro-operations (R5, R121 to R127, R170) -/

/-- `SET_FUNCTION(p, f)`: a whole-register read-modify-write (R121). -/
def microSetFunction (c : Config) (p : Nat) (f : PinFunction) : List Micro :=
  [⟨.regRead (fselWord p), none, none⟩,
   ⟨.regWrite (fselWord p) (.field (fselShift p) (fnCode c f)), none, some (.setFunction p f)⟩]

/-- `SET_LEVEL(p, l)`: a blind one-bit write (R123 to R125); `i` is `bit_index` meanwhile. -/
def microSetLevel (c : Config) (i : Option Nat) (p : Nat) (l : Level) : Micro :=
  ⟨.regWrite (levelWord c p l) (.word (oneBit p)), i, some (.setLevel p l)⟩

/-- The level read of `GET_LEVEL(p)` (R127). -/
def microGetLevel (c : Config) (p : Nat) : Micro := ⟨.regRead (levWord c p), none, some (.getLevel p)⟩

/-- `Delay(n)`; "`Delay(0)` is no micro-operation at all" (R160, R170). -/
def microDelay (i : Option Nat) (n : Nat) : List Micro :=
  if n = 0 then [] else [⟨.delay n, i, none⟩]

/-! ### Running a command -/

/-- What the lifecycle says to a command (R203). -/
inductive Gate where
  | run
  | noOp
  | refuse (why : RefuseReason)
  deriving DecidableEq, Repr

/-- Every command but `OPEN` and `CLOSE` wants `life = OPEN` (R201). -/
def gateOpen : Life → Gate
  | .unopened => .refuse .notOpen
  | .opened => .run
  | .closed => .refuse .notOpen
  | .aborted => .refuse .notOpen

/-- `OPEN` wants `life = UNOPENED` (R202). -/
def gateUnopened : Life → Gate
  | .unopened => .run
  | .opened => .refuse .alreadyOpened
  | .closed => .refuse .alreadyOpened
  | .aborted => .refuse .alreadyOpened

/-- `CLOSE` wants `life = OPEN`, and does nothing when `CLOSED` (R150, R151, R201). -/
def gateClose : Life → Gate
  | .unopened => .refuse .notOpen
  | .opened => .run
  | .closed => .noOp
  | .aborted => .refuse .notOpen

/-- Accept a command (R41, R99): `cur` and the operands are loaded, `upc` is 0, no response is presented yet. -/
def accept (i : Instr) (s : State) : State :=
  { s with
    seq := { cur := some i, upc := 0, opndPin := i.pin?, opndByte := i.byte?, tmp := none, bitIndex := none }
    response := none }

/-- The command ends: the sequencer is Idle and the working values have no value (R40, R41). -/
def finish (s : State) : State := { s with seq := .idle }

/-- Perform micro-operations, then end the command. -/
def runToEnd (ms : List Micro) (s : State) : Host.Outcome State Fault Refusal :=
  andThen (performAll ms s) fun t => .next (finish t)

/-- One command (R99, R203). A command is accepted only in Idle: presented while another is being performed it is not
accepted and nothing changes (notes/assumptions/5). The word's legality is tested first, then `life`; a command that
passes performs its whole expansion. -/
def command (i : Instr) (gate : Gate) (ms : List Micro) (s : State) : Host.Outcome State Fault Refusal :=
  match s.seq.cur with
  | some _ => .next s
  | none =>
    if i.wellFormed then
      match gate with
      | .refuse why => .next (refuse why s)
      | .noOp => .next (respond none s)
      | .run => runToEnd ms (accept i s)
    else .next (refuse .illegalCommand s)

/-- The command word on the command port, with the rest of the host's stream left there (R99). -/
def takeWord (s : State) : Option (CmdWord × State) :=
  match s.cmds with
  | [] => none
  | w :: rest => some (w, { s with cmds := rest })

end Sys2Proof.Machine
end

