-- ==== Sys2Proof/Machine/Display.lean ====
section
/-! DEFINITION. The 2-wire display writer: DISP_START, DISP_BYTE, DISP_CMD (spec/43_display_writer.md). -/

namespace Sys2Proof.Machine

/-- `SET_LEVEL(p, l) ; Delay(1)` (R171, R173). -/
def dispEdge (c : Config) (i : Option Nat) (p : Nat) (l : Level) : List Micro :=
  microSetLevel c i p l :: microDelay i 1

/-- Expansion of `DISP_START` (R171): no delay between the first two writes (conflict C5). -/
def expandDispStart (c : Config) : List Micro :=
  microSetLevel c none c.pinDispClk .high :: dispEdge c none c.pinDispData .high ++
  dispEdge c none c.pinDispData .low ++ dispEdge c none c.pinDispClk .low

/-- `DISP_START` (R171). -/
def execDispStart (s : State) : Host.Outcome State Fault Refusal :=
  command .dispStart (gateOpen s.life) (expandDispStart s.cfg) s

/-- One clocked bit of R173: clock Low, data, clock High, a delay after each. -/
def dispClocked (c : Config) (i : Nat) (l : Level) : List Micro :=
  dispEdge c (some i) c.pinDispClk .low ++ dispEdge c (some i) c.pinDispData l ++
  dispEdge c (some i) c.pinDispClk .high

/-- Expansion of `DISP_BYTE byte` (R173): eight data bits, least significant first, then the forced acknowledge pulse
with the data line High. `bit_index` is 8 in that pulse (notes/assumptions/13). -/
def expandDispByte (c : Config) (byte : Byte) : List Micro :=
  (List.range 8).flatMap (fun i => dispClocked c i (bitLevel byte i)) ++ dispClocked c 8 .high

/-- `DISP_BYTE byte` (R173). -/
def execDispByte (byte : Byte) (s : State) : Host.Outcome State Fault Refusal :=
  command (.dispByte byte) (gateOpen s.life) (expandDispByte s.cfg byte) s

/-- Expansion of `DISP_CMD byte` (R175): the three parts back to back. DESIGN CHOICE (notes/assumptions/13): in the
closing `DISP_START`, which has no loop, `bit_index` has no value again; R40 does not say. -/
def expandDispCmd (c : Config) (byte : Byte) : List Micro :=
  expandDispStart c ++ expandDispByte c byte ++ expandDispStart c

/-- `DISP_CMD byte` (R175). -/
def execDispCmd (byte : Byte) (s : State) : Host.Outcome State Fault Refusal :=
  command (.dispCmd byte) (gateOpen s.life) (expandDispCmd s.cfg byte) s

end Sys2Proof.Machine
end

