-- ==== Sys2Proof/Machine/Lifecycle.lean ====
section
/-! DEFINITION. The lifecycle commands of the Register Interface: OPEN, INIT_PINS, CLOSE (spec/41_lifecycle.md). -/

namespace Sys2Proof.Machine

/-- The fatal cause `OPEN` reports in an environment, or none: the three tests in the order model, device, mapping,
the first failure reported (R140, R190, R195; decision D12). -/
def openCause (e : Env) : Option FatalCause :=
  if !e.supported then some .unsupportedModel
  else if !e.devOpenable then some .openDeviceFailed
  else if !e.mappable then some .mapFailed
  else none

/-- Expansion of `OPEN` (R140): one micro-operation, `Map` or `Abort(cause)` (R110). -/
def expandOpen (e : Env) : List Micro :=
  match openCause e with
  | some cause => [⟨.abort cause, none, none⟩]
  | none => [⟨.map, none, none⟩]

/-- `OPEN` (R140). -/
def execOpen (s : State) : Host.Outcome State Fault Refusal :=
  command .openIface (gateUnopened s.life) (expandOpen s.env) s

/-- Expansion of `INIT_PINS` (R145): `SET_FUNCTION(pin, Output)` for the six controlled pins in list order. -/
def expandInitPins (c : Config) : List Micro :=
  c.controlledPins.flatMap fun p => microSetFunction c p .output

/-- `INIT_PINS` (R145). -/
def execInitPins (s : State) : Host.Outcome State Fault Refusal :=
  command .initPins (gateOpen s.life) (expandInitPins s.cfg) s

/-- Expansion of `CLOSE` (R150): the six safe levels in list order, the two writes of zero, `Unmap`. -/
def expandClose (c : Config) : List Micro :=
  (c.safeIdle.map fun pl => microSetLevel c none pl.1 pl.2) ++
  [⟨.regWrite (c.clrBase + 0) (.word 0), none, none⟩,
   ⟨.regWrite (c.clrBase + 1) (.word 0), none, none⟩,
   ⟨.unmap, none, none⟩]

/-- `CLOSE` (R150); in `CLOSED` a no-op (R151). -/
def execClose (s : State) : Host.Outcome State Fault Refusal :=
  command .closeIface (gateClose s.life) (expandClose s.cfg) s

end Sys2Proof.Machine
end

