-- ==== Sys2Proof/Machine/Primitives.lean ====
section
/-! DEFINITION. The register control primitives: SET_FUNCTION, PIN_SET, PIN_CLR, GET_LEVEL
(spec/40_register_primitives.md). -/

namespace Sys2Proof.Machine

/-- Expansion of `SET_FUNCTION pin, function` (R121). -/
def expandSetFunction (c : Config) (pin : PinField) (fn : PinFunction) : List Micro :=
  microSetFunction c pin.toNat fn

/-- `SET_FUNCTION pin, function` (R121). -/
def execSetFunction (pin : PinField) (fn : PinFunction) (s : State) : Host.Outcome State Fault Refusal :=
  command (.setFunction pin fn) (gateOpen s.life) (expandSetFunction s.cfg pin fn) s

/-- Expansion of `PIN_SET pin` (R124). -/
def expandPinSet (c : Config) (pin : PinField) : List Micro := [microSetLevel c none pin.toNat .high]

/-- `PIN_SET pin` (R124). -/
def execPinSet (pin : PinField) (s : State) : Host.Outcome State Fault Refusal :=
  command (.pinSet pin) (gateOpen s.life) (expandPinSet s.cfg pin) s

/-- Expansion of `PIN_CLR pin` (R125). -/
def expandPinClr (c : Config) (pin : PinField) : List Micro := [microSetLevel c none pin.toNat .low]

/-- `PIN_CLR pin` (R125). -/
def execPinClr (pin : PinField) (s : State) : Host.Outcome State Fault Refusal :=
  command (.pinClr pin) (gateOpen s.life) (expandPinClr s.cfg pin) s

/-- Expansion of `GET_LEVEL pin` (R127). -/
def expandGetLevel (c : Config) (pin : PinField) : List Micro := [microGetLevel c pin.toNat]

/-- `GET_LEVEL pin` (R127). -/
def execGetLevel (pin : PinField) (s : State) : Host.Outcome State Fault Refusal :=
  command (.getLevel pin) (gateOpen s.life) (expandGetLevel s.cfg pin) s

end Sys2Proof.Machine
end

