-- ==== Sys2Proof/Machine/ShiftRegister.lean ====
section
/-! DEFINITION. The shift-register byte writer: SR_WRITE (spec/42_shift_register_writer.md). -/

namespace Sys2Proof.Machine

/-- `SET_LEVEL(p, l) ; Delay(e)` with `e = SR_EDGE_DELAY_UNITS` (R160). -/
def srEdge (c : Config) (i : Nat) (p : Nat) (l : Level) : List Micro :=
  microSetLevel c (some i) p l :: microDelay (some i) c.srEdgeDelay

/-- Iteration `i` of the loop of R160: the data bit, then the shift clock Low and High. -/
def srBit (c : Config) (byte : Byte) (i : Nat) : List Micro :=
  srEdge c i c.pinSrData (bitLevel byte i) ++ srEdge c i c.pinSrShclk .low ++ srEdge c i c.pinSrShclk .high

/-- Expansion of `SR_WRITE byte` (R160): eight iterations, least significant bit first, then the latch clock Low and
High. `bit_index` is 8 after the loop (R40; notes/assumptions/13). -/
def expandSrWrite (c : Config) (byte : Byte) : List Micro :=
  (List.range 8).flatMap (srBit c byte) ++ srEdge c 8 c.pinSrLatch .low ++ srEdge c 8 c.pinSrLatch .high

/-- `SR_WRITE byte` (R160). -/
def execSrWrite (byte : Byte) (s : State) : Host.Outcome State Fault Refusal :=
  command (.srWrite byte) (gateOpen s.life) (expandSrWrite s.cfg byte) s

end Sys2Proof.Machine
end

