-- ==== Sys2Proof/Machine/Dispatch.lean ====
section
/-! DEFINITION. The meaning of every command, one arm per constructor of Instr. -/

namespace Sys2Proof.Machine

def exec (i : Instr) (s : State) : Host.Outcome State Fault Refusal :=
  match i with
  | .openIface => Sys2Proof.Machine.execOpen s
  | .setFunction pin fn => Sys2Proof.Machine.execSetFunction pin fn s
  | .pinSet pin => Sys2Proof.Machine.execPinSet pin s
  | .pinClr pin => Sys2Proof.Machine.execPinClr pin s
  | .getLevel pin => Sys2Proof.Machine.execGetLevel pin s
  | .initPins => Sys2Proof.Machine.execInitPins s
  | .closeIface => Sys2Proof.Machine.execClose s
  | .srWrite byte => Sys2Proof.Machine.execSrWrite byte s
  | .dispStart => Sys2Proof.Machine.execDispStart s
  | .dispByte byte => Sys2Proof.Machine.execDispByte byte s
  | .dispCmd byte => Sys2Proof.Machine.execDispCmd byte s

end Sys2Proof.Machine
end

