-- ==== Sys2Proof/Machine/Expansion.lean ====
section
/-! DEFINITION. The expansion of every command (spec/30_encoding.md R110) and going on with a command from the
micro-operation the sequencer stands at (spec/10_state.md R41). -/

namespace Sys2Proof.Machine

/-- The expansion of a command: a function of the command, the configuration and the environment (R110). -/
def expansion (c : Config) (e : Env) : Instr → List Micro
  | .openIface => expandOpen e
  | .setFunction pin fn => expandSetFunction c pin fn
  | .pinSet pin => expandPinSet c pin
  | .pinClr pin => expandPinClr c pin
  | .getLevel pin => expandGetLevel c pin
  | .initPins => expandInitPins c
  | .closeIface => expandClose c
  | .srWrite byte => expandSrWrite c byte
  | .dispStart => expandDispStart c
  | .dispByte byte => expandDispByte c byte
  | .dispCmd byte => expandDispCmd c byte

/-- What the lifecycle says to each command in each lifecycle state: the table of R203. -/
def gateOf (l : Life) : Instr → Gate
  | .openIface => gateUnopened l
  | .setFunction _ _ => gateOpen l
  | .pinSet _ => gateOpen l
  | .pinClr _ => gateOpen l
  | .getLevel _ => gateOpen l
  | .initPins => gateOpen l
  | .closeIface => gateClose l
  | .srWrite _ => gateOpen l
  | .dispStart => gateOpen l
  | .dispByte _ => gateOpen l
  | .dispCmd _ => gateOpen l

/-- Go on with command `i` from micro-operation `upc` to its end (R41, R99: never abandoned part-way). -/
def resume (i : Instr) (s : State) : Host.Outcome State Fault Refusal :=
  runToEnd ((expansion s.cfg s.env i).drop s.seq.upc) s

end Sys2Proof.Machine
end

