-- ==== Sys2Proof/Machine/Step.lean ====
section
/-! DEFINITION. One step of the machine: one command, from Idle back to Idle (spec/30_encoding.md R99,
spec/60_exceptions.md R203; notes/assumptions/1). -/

namespace Sys2Proof.Machine

/-- The step. In Idle the command word on the port is taken and decoded: an illegal word is refused (R103, R200), a
legal one performed. With no word on the port the block waits in Idle (R221). A sequencer that stands inside a command
goes on with it to its end and accepts no word (R99). -/
def step (s : State) : Host.Outcome State Fault Refusal :=
  match s.seq.cur with
  | some i => resume i s
  | none =>
    match takeWord s with
    | none => .next s
    | some (w, t) =>
      match decode w with
      | .legal i => exec i t
      | .illegal _ => .next (refuse .illegalCommand t)

/-- `s` with the word `w` on the command port and the sequencer Idle, so that the next step decodes and performs it.
The rest of the host's stream stays. -/
def State.withFetchWord (s : State) (nbits w : Nat) : State :=
  { s with seq := .idle, cmds := BitVec.ofNat 16 (w % 2 ^ nbits) :: s.cmds.tail }

end Sys2Proof.Machine
end

