-- ==== Sys2Proof/Machine/Monitor.lean ====
section
/-! DEFINITION. What the outside makes of the pad trace: edges (spec/00_scope.md R19) and the two line monitors of
spec/42_shift_register_writer.md R164 and spec/43_display_writer.md R178. The external chips themselves are out of
scope (R7 f); the monitors read the pad trace and nothing else. -/

namespace Sys2Proof.Machine

/-- A rising edge: a pad's level changes from Low to High (R19). DESIGN CHOICE (notes/assumptions/30): a pad that goes
from undriven to driven, or back, makes no edge here; the outside may see one (R236, U14). -/
def isRise (old new : Pad) : Bool := decide (old = .driven .low) && decide (new = .driven .high)

/-- A falling edge: from High to Low (R19); of an undriven pad as in `isRise` (notes/assumptions/30). -/
def isFall (old new : Pad) : Bool := decide (old = .driven .high) && decide (new = .driven .low)

/-- How often pin `p` rises in a pad trace. -/
def rises (p : Nat) : List PadEvent → Nat
  | [] => 0
  | .change q old new :: es => (if q = p ∧ isRise old new then 1 else 0) + rises p es
  | .delay _ :: es => rises p es

/-- How often pin `p` falls in a pad trace. -/
def falls (p : Nat) : List PadEvent → Nat
  | [] => 0
  | .change q old new :: es => (if q = p ∧ isFall old new then 1 else 0) + falls p es
  | .delay _ :: es => falls p es

/-- The shift-register line monitor (R164): the data pad now, the levels sampled so far, what was latched. -/
structure SrMonitor where
  data : Pad
  shifted : List Pad
  latched : List (List Pad)
  deriving DecidableEq, Repr

/-- "On each rising edge of `pad(C)` it appends the level of `pad(D)`; on each rising edge of `pad(L)` it emits
`Latched(last eight elements of shifted)`" (R164). DESIGN CHOICE (notes/assumptions/28): before eight levels have been
sampled it emits the shorter list of all of them; R164 does not say. DESIGN CHOICE (notes/assumptions/31): where the
shift clock rises while the data pad is undriven, the level appended is `Pad.undriven` itself; U14 makes that level any
value and defines the monitor only while its pins are Output. -/
def SrMonitor.see (c : Config) (m : SrMonitor) : PadEvent → SrMonitor
  | .delay _ => m
  | .change p old new =>
    if p = c.pinSrData then { m with data := new }
    else if p = c.pinSrShclk then
      if isRise old new then { m with shifted := m.shifted ++ [m.data] } else m
    else if p = c.pinSrLatch then
      if isRise old new then { m with latched := m.latched ++ [m.shifted.drop (m.shifted.length - 8)] } else m
    else m

/-- The shift-register monitor over a pad trace. -/
def SrMonitor.watch (c : Config) (m : SrMonitor) (es : List PadEvent) : SrMonitor := es.foldl (SrMonitor.see c) m

/-- The display line monitor (R178): both pads now, the levels sampled since the last marker, and for each start
marker what had been sampled before it (a marker empties the list). -/
structure DispMonitor where
  clock : Pad
  data : Pad
  bits : List Pad
  frames : List (List Pad)
  deriving DecidableEq, Repr

/-- "On a High-to-Low change of `pad(DD)` while `pad(DC)` is High it emits `StartMarker` and empties its list `bits`;
on each rising edge of `pad(DC)` it appends the level of `pad(DD)` to `bits`" (R178). A rise of the data line while the
clock is High has no meaning (U17). DESIGN CHOICE (notes/assumptions/31): where the clock rises while the data pad is
undriven, the level appended is `Pad.undriven` itself, and a fall of the data line while the clock pad is undriven emits
no marker; U14 makes an undriven level any value and defines the monitor only while both pins are Output. -/
def DispMonitor.see (c : Config) (m : DispMonitor) : PadEvent → DispMonitor
  | .delay _ => m
  | .change p old new =>
    if p = c.pinDispData then
      if isFall old new && decide (m.clock = .driven .high) then
        { m with data := new, bits := [], frames := m.frames ++ [m.bits] }
      else { m with data := new }
    else if p = c.pinDispClk then
      if isRise old new then { m with clock := new, bits := m.bits ++ [m.data] } else { m with clock := new }
    else m

/-- The display monitor over a pad trace. -/
def DispMonitor.watch (c : Config) (m : DispMonitor) (es : List PadEvent) : DispMonitor :=
  es.foldl (DispMonitor.see c) m

/-- The start markers seen (R178). -/
def DispMonitor.markers (m : DispMonitor) : Nat := m.frames.length

end Sys2Proof.Machine
end

