-- ==== Sys2Proof/Safety.lean ====
section
/-! DEFINITION. What counts as a safe run, in the terms the statements use: the states in which a command is
performed, the invariant every command keeps, replaying a bus trace, and the end of a run
(spec/70_reset_and_hazards.md R225). -/

namespace Sys2Proof.Machine

/-- The interface is open, its mapping live, the sequencer Idle, and the configuration one R11 and R12 admit. In such
a state "none of them can fail" (R120, R198). -/
structure State.Ready (s : State) : Prop where
  opened : s.life = .opened
  mapped : s.mapped = true
  idle : s.seq = .idle
  cfg : s.cfg.Admissible

/-- With the sequencer Idle and the interface not open the command is refused `NOT_OPEN`: the response, the mark, and
nothing else (R200, R201). -/
def NeedsOpen (i : Instr) : Prop :=
  ∀ s : State, s.seq = .idle → s.life ≠ .opened →
    exec i s = .next { s with response := some (.refused .notOpen), refusedMark := true }

/-- All six controlled pins are Output, as `INIT_PINS` leaves them (R145). -/
def State.PinsOutput (s : State) : Prop := ∀ p ∈ s.cfg.controlledPins, s.block.isOutput s.cfg p = true

/-- The Register Block is in its one form: the reserved bits of the six GPFSEL words are zero (R23). -/
def Block.wf (b : Block) : Bool :=
  (List.finRange 6).all fun n => decide (b.fsel[n] &&& ~~~(fselMask n) = 0)

/-- The lifecycle as one bus event moves it (R35, R140, R150, R194); `none` where no event of that kind may stand: no
register access and no delay outside the mapping (R61), one `Map`, one `Unmap` (R243), nothing after a fatal cause. -/
def lifeAfter (l : Life) (e : BusEvent) : Option Life :=
  match l, e with
  | .unopened, .map => some .opened
  | .unopened, .fatal _ => some .aborted
  | .opened, .busRead _ _ => some .opened
  | .opened, .busWrite _ _ => some .opened
  | .opened, .delay _ => some .opened
  | .opened, .unmap => some .closed
  | _, _ => none

/-- The lifecycle a bus trace shows, from `l`; `none` if an event stands where none may. -/
def traceLife (l : Life) : List BusEvent → Option Life
  | [] => some l
  | e :: es => (lifeAfter l e).bind fun k => traceLife k es

/-- The Register Block after one bus event (R63). -/
def blockEvent (c : Config) (b : Block) : BusEvent → Block
  | .busWrite w v => match regOf c w with
    | some r => b.write r v
    | none => b
  | _ => b

/-- The Register Block a bus trace leaves (R63, R69). -/
def blockAfter (c : Config) (b : Block) (es : List BusEvent) : Block := es.foldl (blockEvent c) b

/-- The pad trace a bus trace causes (R17, R33). -/
def padsAfter (c : Config) (b : Block) : List BusEvent → List PadEvent
  | [] => []
  | .busWrite w v :: es =>
    let b' := blockEvent c b (.busWrite w v)
    padChanges c b b' ++ padsAfter c b' es
  | .delay n :: es => .delay n :: padsAfter c b es
  | _ :: es => padsAfter c b es

/-- The delay units of a bus trace (R44, R170). -/
def delayUnits : List BusEvent → Nat
  | [] => 0
  | .delay n :: es => n + delayUnits es
  | _ :: es => delayUnits es

/-- The bus event of `SET_LEVEL(p, l)` (R124, R125). -/
def levelEvent (c : Config) (p : Nat) (l : Level) : BusEvent := .busWrite (levelWord c p l) (oneBit p)

/-- The two bus events of `SET_FUNCTION(p, f)` on a GPFSEL word that holds `v` (R121). -/
def functionEvents (c : Config) (p : Nat) (f : PinFunction) (v : Word) : List BusEvent :=
  [.busRead (fselWord p) v, .busWrite (fselWord p) (updateField v (fselShift p) (fnCode c f))]

/-- The Register Block with the latch of pin `p` at level `l` and all else as it was. -/
def Block.withLatch (b : Block) (p : Nat) (l : Level) : Block :=
  match l with
  | .high => { b with olat := b.olat ||| BitVec.twoPow 58 p }
  | .low => { b with olat := b.olat &&& ~~~(BitVec.twoPow 58 p) }

/-- The Register Block with several latches set, in list order. -/
def Block.withLatches (b : Block) (ls : List (Nat × Level)) : Block := ls.foldl (fun b pl => b.withLatch pl.1 pl.2) b

/-- The bus events of a primitive that is no read (R17, R123, R170). -/
def primBus (c : Config) : PrimEvent → List BusEvent
  | .setLevel p l => [levelEvent c p l]
  | .delay n => [.delay n]
  | _ => []

/-- The state after a sequence of level writes and delays and nothing else (R5): the Register Block and the pads as
the writes leave them, the three traces longer by these events, the delay units counted, no response. -/
def State.afterPrims (s : State) (ps : List PrimEvent) : State :=
  let es := ps.flatMap (primBus s.cfg)
  { s with
    block := blockAfter s.cfg s.block es
    busTrace := s.busTrace ++ es
    primTrace := s.primTrace ++ ps
    padTrace := s.padTrace ++ padsAfter s.cfg s.block es
    elapsedUnits := s.elapsedUnits + delayUnits es
    response := none }

/-- The Register Block with the function field of pin `p` holding the code of `f` (R94). -/
def Block.withFunction (c : Config) (b : Block) (p : Nat) (f : PinFunction) : Block :=
  let v := updateField (b.fselWord (fselIndex p)) (fselShift p) (fnCode c f)
  { b with fsel := b.fsel.setIfInBounds (fselIndex p) v }

/-- The bus events of `SET_FUNCTION(p, Output)` for each pin of a list in order, each reading what the ones before it
wrote (R145). -/
def outputEvents (c : Config) (b : Block) : List Nat → List BusEvent
  | [] => []
  | p :: ps => functionEvents c p .output (b.fselWord (fselIndex p)) ++
      outputEvents c (b.withFunction c p .output) ps

/-- The Register Block after `SET_FUNCTION(p, Output)` for each pin of a list (R145). -/
def Block.withOutputs (c : Config) (b : Block) (ps : List Nat) : Block :=
  ps.foldl (fun b p => b.withFunction c p .output) b

/-- What every step keeps. -/
structure State.Inv (s : State) : Prop where
  /-- the configuration is one R11 and R12 admit -/
  cfg : s.cfg.Admissible
  /-- between commands the sequencer is Idle and holds no working value (R40, R41) -/
  idle : s.seq = .idle
  /-- `mapped` is true exactly when `life = OPEN` (R37) -/
  mapped : s.mapped = decide (s.life = .opened)
  /-- `fatal_cause` has a value exactly in `ABORTED` (R36) -/
  cause : s.fatalCause.isSome = decide (s.life = .aborted)
  /-- reserved bits are zero (R23) -/
  block : s.block.wf = true
  /-- the bus trace shows the lifecycle: no access outside the mapping, one `Map`, one `Unmap` (R61, R243) -/
  trace : traceLife .unopened s.busTrace = some s.life
  /-- `elapsed_units` is the sum of the delays performed (R44) -/
  elapsed : s.elapsedUnits = delayUnits s.busTrace

/-- A run is finished when the sequencer is Idle and the interface was never opened, is closed or has aborted (R225). -/
def State.Finished (s : State) : Prop :=
  s.seq.cur = none ∧ (s.life = .unopened ∨ s.life = .closed ∨ s.life = .aborted)

/-- No command of the run was refused (R200); a claim about a run is a claim about such a run. -/
def State.Unrefused (s : State) : Prop := s.refusedMark = false

/-- The least time the delays performed so far have taken, in microseconds (R170, R245). -/
def State.minElapsed (s : State) : Nat := s.elapsedUnits * s.cfg.delayUnit

end Sys2Proof.Machine
end

