-- ==== Sys2Proof/Certificates/Slice0/Obligations.lean ====
section
/-! DEFINITION. The statements for the provers, each a Prop that says which rule of spec/ it formalises. Every
statement about a command ranges over every configuration that R11 and R12 admit (`State.Ready`, `State.Inv`). -/

open Sys2Proof Sys2Proof.Machine

/-! ### Encoding -/

/-- Words the spec writes out decode to the commands they stand for, and others are illegal for the reason given
(R105's examples; 95_test_vectors.md V50, V51). -/
def Obligations.DecodeSpecWords : Prop :=
  decode 0x1000 = .legal .openIface ∧
  decode 0x204C = .legal (.setFunction 12 .output) ∧ decode 0x2039 = .legal (.setFunction 57 .input) ∧
  decode 0x3079 = .legal (.pinSet 57) ∧ decode 0x300C = .legal (.pinClr 12) ∧
  decode 0x4039 = .legal (.getLevel 57) ∧
  decode 0x5000 = .legal .initPins ∧ decode 0x6000 = .legal .closeIface ∧
  decode 0x80B2 = .legal (.srWrite 0xB2) ∧
  decode 0x9000 = .legal .dispStart ∧ decode 0xA044 = .legal (.dispByte 0x44) ∧
  decode 0xB08F = .legal (.dispCmd 0x8F) ∧
  decode 0x0000 = .illegal .reservedOpcode ∧ decode 0x7000 = .illegal .reservedOpcode ∧
  decode 0xFFFF = .illegal .reservedOpcode ∧
  decode 0x1001 = .illegal .mustBeZero ∧ decode 0x4040 = .illegal .mustBeZero ∧
  decode 0x8100 = .illegal .mustBeZero ∧
  decode 0x203A = .illegal .pinOutOfRange ∧ decode 0x307A = .illegal .pinOutOfRange

/-- Decoding an encoded well-formed command gives it back, for all eleven commands and every operand. -/
def Obligations.DecodeEncodeRoundTrip : Prop :=
  ∀ i : Instr, i.WellFormed → decode (encode i) = .legal i

/-- The other direction: a word decodes to at most the command whose word it is, so every legal command has exactly one
word, it lies in its row of the opcode table, and it lies in no other command's row. -/
def Obligations.DecodedWordIsItsEncoding : Prop :=
  ∀ (w : CmdWord) (i : Instr), decode w = .legal i →
    i.WellFormed ∧ encode i = w ∧ w &&& maskOf i = matchOf i ∧
    ∀ j : Instr, w &&& maskOf j = matchOf j → matchOf j = matchOf i

/-- R103: the three cases of an illegal word, each refused `ILLEGAL_COMMAND` in every lifecycle state, with no
micro-operation and no change but the word taken, the response and the mark. -/
def Obligations.IllegalWordRefused : Prop :=
  ∀ (s : State) (w : CmdWord) (rest : List CmdWord), s.seq.cur = none → s.cmds = w :: rest →
    let op := (w.extractLsb' 12 4).toNat
    ((op = 0 ∨ op = 7 ∨ 12 ≤ op) ∨
     ((op = 1 ∨ op = 5 ∨ op = 6 ∨ op = 9) ∧ w.extractLsb' 0 12 ≠ 0#12) ∨
     ((op = 2 ∨ op = 3) ∧ w.extractLsb' 7 5 ≠ 0#5) ∨
     (op = 4 ∧ w.extractLsb' 6 6 ≠ 0#6) ∨
     ((op = 8 ∨ op = 10 ∨ op = 11) ∧ w.extractLsb' 8 4 ≠ 0#4) ∨
     ((op = 2 ∨ op = 3 ∨ op = 4) ∧ 57 < (w.extractLsb' 0 6).toNat)) →
    step s = .next { s with cmds := rest, response := some (.refused .illegalCommand), refusedMark := true }

/-- R90, R97: a pin has one function-select register and field and one bit in the set, clear and level registers, all
inside their words, and no two pins share either. -/
def Obligations.PinPlacesDistinct : Prop :=
  ∀ p q : Nat, p ≤ 57 → q ≤ 57 →
    fselIndex p < 6 ∧ fselShift p ≤ 27 ∧ wordIndex p < 2 ∧ bitInWord p < 32 ∧
    (p ≠ q → (fselIndex p ≠ fselIndex q ∨ fselShift p + 3 ≤ fselShift q ∨ fselShift q + 3 ≤ fselShift p) ∧
      (wordIndex p ≠ wordIndex q ∨ oneBit p &&& oneBit q = 0))

/-! ### The step -/

/-- A step in Idle takes the word on the command port and performs the command it decodes to (R99; that one step is one
whole command is the model's own, notes/assumptions/1 and 6). -/
def Obligations.StepRunsDecodedCommand : Prop :=
  ∀ (s : State) (w : CmdWord) (rest : List CmdWord) (i : Instr), s.seq.cur = none → s.cmds = w :: rest →
    decode w = .legal i → step s = exec i { s with cmds := rest }

/-- `withFetchWord` presents a word to the very next step (notes/assumptions/6: the model's own). -/
def Obligations.FetchedWordRunsNext : Prop :=
  ∀ (s : State) (nbits w : Nat) (i : Instr), decodeTableWord nbits w = some i →
    step (s.withFetchWord nbits w) = exec i { s with seq := .idle, cmds := s.cmds.tail }

/-- With no word presented the block waits in Idle (R221; notes/assumptions/6: a step that waits is the model's own). -/
def Obligations.IdleWaitsForWord : Prop :=
  ∀ s : State, s.seq.cur = none → s.cmds = [] → step s = .next s

/-- R41, R99: a command is one and the same whether it is performed at once or gone on with from any of its
micro-operations: after `k` of them the sequencer stands at `upc = k` in that command, and a step from there ends in
the state the whole command ends in (that a step goes on to the end is the model's own, notes/assumptions/1). -/
def Obligations.ResumeAgreesWithExec : Prop :=
  ∀ (s t : State) (i : Instr) (k : Nat), s.seq.cur = none → i.WellFormed → gateOf s.life i = .run →
    k ≤ (expansion s.cfg s.env i).length →
    performAll ((expansion s.cfg s.env i).take k) (accept i s) = .next t →
    t.seq.cur = some i ∧ t.seq.upc = k ∧ step t = exec i s

/-- R99: inside a command no word is accepted: a step ends the command in Idle and leaves the host's stream; and exec,
asked to start another, changes nothing (notes/assumptions/5: the model's own). -/
def Obligations.BusyAcceptsNoWord : Prop :=
  (∀ s t : State, s.seq.cur ≠ none → step s = .next t → t.seq = .idle ∧ t.cmds = s.cmds) ∧
  (∀ (s : State) (i : Instr), s.seq.cur ≠ none → exec i s = .next s)

/-- R232, R14: no step changes the configuration or the environment. -/
def Obligations.ArgumentsNeverChange : Prop :=
  ∀ s t : State, step s = .next t → t.cfg = s.cfg ∧ t.env = s.env

/-- R63, R170: whatever a step does to the Register Block, the pads and the delay count is what its bus events
do; nothing reaches them otherwise, and nothing is taken back from a trace. -/
def Obligations.BlockFollowsBusTrace : Prop :=
  ∀ s t : State, step s = .next t → ∃ es : List BusEvent,
    t.busTrace = s.busTrace ++ es ∧ t.block = blockAfter s.cfg s.block es ∧
    t.padTrace = s.padTrace ++ padsAfter s.cfg s.block es ∧ t.elapsedUnits = s.elapsedUnits + delayUnits es

/-! ### Reset and invariants -/

/-- R50: the values after power-on, for every Register Block with its reserved bits zero, and after process start, which
leaves the Register Block; and the machine's reset is a power-on (at the arguments notes/assumptions/2 and 3 name). -/
def Obligations.ResetValues : Prop :=
  (∀ (c : Config) (e : Env) (b : Block), b.wf = true →
    let s := State.powerOn c e b
    s.block = b ∧ s.block.wf = true ∧ s.life = .unopened ∧ s.mapped = false ∧ s.fatalCause = none ∧
    s.seq.cur = none ∧ s.seq.upc = 0 ∧ s.seq.opndPin = none ∧ s.seq.opndByte = none ∧ s.seq.tmp = none ∧
    s.seq.bitIndex = none ∧ s.elapsedUnits = 0) ∧
  (∀ (s : State) (env : Env),
    let t := s.processStart env
    t.block = s.block ∧ t.life = .unopened ∧ t.mapped = false ∧ t.fatalCause = none ∧ t.seq.cur = none ∧
    t.seq.upc = 0 ∧ t.seq.opndPin = none ∧ t.seq.opndByte = none ∧ t.seq.tmp = none ∧ t.seq.bitIndex = none ∧
    t.elapsedUnits = 0) ∧
  (∃ (c : Config) (e : Env) (b : Block), b.wf = true ∧ State.reset = State.powerOn c e b)

/-- The invariant holds after reset. -/
def Obligations.ResetMeetsInvariant : Prop := State.reset.Inv

/-- Every step keeps the invariant: Idle between commands with no working value (R40, R41), `mapped` exactly while
OPEN (R37), a fatal cause exactly in ABORTED (R36), reserved bits zero (R23), a bus trace with no access outside the
mapping, one `Map`, one `Unmap` (R61, R243), and `elapsed_units` the sum of the delays (R44). -/
def Obligations.StepKeepsInvariant : Prop :=
  ∀ s t : State, s.Inv → step s = .next t → t.Inv

/-- From a state that meets the invariant a step always answers a next state: no command stops the model. -/
def Obligations.StepNeverStops : Prop :=
  ∀ s : State, s.Inv → ∃ t : State, step s = .next t

/-- What the trace part of the invariant means (R61, R243): at most one `Map` and one `Unmap`, and every register
access or delay stands after the `Map` with no `Unmap` before it. -/
def Obligations.AccessOnlyWhileMapped : Prop :=
  ∀ s : State, s.Inv →
    s.busTrace.count .map ≤ 1 ∧ s.busTrace.count .unmap ≤ 1 ∧
    ∀ (before after : List BusEvent) (e : BusEvent), s.busTrace = before ++ e :: after →
      ((∃ w v, e = .busRead w v) ∨ (∃ w v, e = .busWrite w v) ∨ (∃ n, e = .delay n)) →
      .map ∈ before ∧ .unmap ∉ before

/-- R141, R197: where `OPEN` failed, the whole bus trace is the one fatal event: no register was touched. -/
def Obligations.AbortedTouchedNothing : Prop :=
  ∀ s : State, s.Inv → s.life = .aborted → ∃ cause, s.busTrace = [.fatal cause]

/-! ### Lifecycle -/

/-- R35: the transitions of `life`. -/
def Obligations.LifeTransitions : Prop :=
  ∀ (s t : State) (i : Instr), exec i s = .next t →
    t.life = s.life ∨
    (i = .openIface ∧ s.life = .unopened ∧ (t.life = .opened ∨ t.life = .aborted)) ∨
    (i = .closeIface ∧ s.life = .opened ∧ t.life = .closed)

/-- R203: the lifecycle table, row by row; legality of the word first, then `life`. Where the table has a command
performed, the next state carries no refusal and no new mark. The table is the spec's own choice (D11); its no-op of
`CLOSE` in CLOSED is the choice of notes/assumptions/20 and the refusals as next states that of notes/assumptions/4. -/
def Obligations.LifecycleTable : Prop :=
  ∀ s : State, s.seq = .idle → s.cfg.Admissible → s.mapped = decide (s.life = .opened) →
    let refused (why : RefuseReason) : State := { s with response := some (.refused why), refusedMark := true }
    let performed (t : State) : Prop := t.refusedMark = s.refusedMark ∧ ∀ why, t.response ≠ some (.refused why)
    (∀ (w : CmdWord) (rest : List CmdWord) (why : Illegal), s.cmds = w :: rest → decode w = .illegal why →
      step s = .next { s with cmds := rest, response := some (.refused .illegalCommand), refusedMark := true }) ∧
    (∀ i : Instr, i.WellFormed →
      match s.life with
      | .unopened =>
        if i = .openIface then ∃ t, exec i s = .next t ∧ performed t ∧ (t.life = .opened ∨ t.life = .aborted)
        else exec i s = .next (refused .notOpen)
      | .opened =>
        if i = .openIface then exec i s = .next (refused .alreadyOpened)
        else if i = .closeIface then ∃ t, exec i s = .next t ∧ performed t ∧ t.life = .closed
        else ∃ t, exec i s = .next t ∧ performed t ∧ t.life = .opened
      | .closed =>
        if i = .openIface then exec i s = .next (refused .alreadyOpened)
        else if i = .closeIface then exec i s = .next { s with response := none }
        else exec i s = .next (refused .notOpen)
      | .aborted =>
        if i = .openIface then exec i s = .next (refused .alreadyOpened)
        else exec i s = .next (refused .notOpen))

/-- R200: a command that responds `Refused` changed nothing but the response and the mark. -/
def Obligations.RefusalChangesNothing : Prop :=
  ∀ (s t : State) (i : Instr) (why : RefuseReason), s.seq.cur = none → exec i s = .next t →
    t.response = some (.refused why) →
    t = { s with response := some (.refused why), refusedMark := true }

/-- R103 (c) at the commands themselves: a pin above 57 is refused in every lifecycle state. -/
def Obligations.PinAbove57Refused : Prop :=
  ∀ (s : State) (p : PinField) (f : PinFunction), s.seq.cur = none → 57 < p.toNat →
    let r : Host.Outcome State Fault Refusal :=
      .next { s with response := some (.refused .illegalCommand), refusedMark := true }
    exec (.setFunction p f) s = r ∧ exec (.pinSet p) s = r ∧ exec (.pinClr p) s = r ∧ exec (.getLevel p) s = r

/-- R140: `OPEN`: its word; the three tests in order, the fatal cause and nothing else on a failure, `Map` on success;
refused unless `life = UNOPENED`. The Register Block is not touched. The order of the tests is a choice, which R140 marks
as this spec's (D12; notes/assumptions/21). -/
def Obligations.OpenMapsOrAborts : Prop :=
  decode 0x1000 = .legal .openIface ∧
  (∀ s : State, s.seq = .idle → s.life = .unopened →
    let aborted (cause : FatalCause) : State := { s with
      fatalCause := some cause, life := .aborted, busTrace := s.busTrace ++ [.fatal cause],
      response := some (.fatal cause) }
    exec .openIface s = .next (
      if s.env.supported = false then aborted .unsupportedModel
      else if s.env.devOpenable = false then aborted .openDeviceFailed
      else if s.env.mappable = false then aborted .mapFailed
      else { s with mapped := true, life := .opened, busTrace := s.busTrace ++ [.map], response := some .ok })) ∧
  (∀ s : State, s.seq = .idle → s.life ≠ .unopened →
    exec .openIface s = .next { s with response := some (.refused .alreadyOpened), refusedMark := true })

/-- R190, R195: the code recorded for each failing precondition, the first in the order model, device, mapping; on a
failure `mapped` and the Register Block stay as they were. The codes and the order are a choice, which R190 and R195 mark
as this spec's (D12; notes/assumptions/21). -/
def Obligations.FatalCauseCodes : Prop :=
  ∀ s : State, s.seq = .idle → s.life = .unopened →
    ∃ t : State, exec .openIface s = .next t ∧ t.block = s.block ∧
      (s.env.supported = false → t.fatalCause.map FatalCause.code = some 1 ∧ t.mapped = s.mapped) ∧
      (s.env.supported = true → s.env.devOpenable = false →
        t.fatalCause.map FatalCause.code = some 2 ∧ t.mapped = s.mapped) ∧
      (s.env.supported = true → s.env.devOpenable = true → s.env.mappable = false →
        t.fatalCause.map FatalCause.code = some 3 ∧ t.mapped = s.mapped) ∧
      (s.env = ⟨true, true, true⟩ → t.fatalCause = s.fatalCause ∧ t.mapped = true)

/-- R145: `INIT_PINS`: its word; refused unless the interface is open; six whole-register read-modify-writes in list
order; afterwards the six controlled pins are Output, every other pin's field and every latch is as before. The list
order, and with it the exact trace, is a choice, which R145 marks as this spec's (D7; notes/assumptions/18). -/
def Obligations.InitPinsMakesOutputs : Prop :=
  decode 0x5000 = .legal .initPins ∧ NeedsOpen .initPins ∧
  ∀ s : State, s.Ready →
    let ps := s.cfg.controlledPins
    let es := outputEvents s.cfg s.block ps
    let b := s.block.withOutputs s.cfg ps
    exec .initPins s = .next { s with
      block := b
      busTrace := s.busTrace ++ es
      primTrace := s.primTrace ++ ps.map fun p => .setFunction p .output
      padTrace := s.padTrace ++ padsAfter s.cfg s.block es
      response := none } ∧
    es.length = 12 ∧ (∀ p ∈ ps, b.isOutput s.cfg p = true) ∧
    (∀ q ≤ 57, q ∉ ps → b.field q = s.block.field q) ∧ b.olat = s.block.olat

/-- R146: `INIT_PINS` when the six pins are already Output changes no register and no pad, and still performs its
twelve accesses. -/
def Obligations.InitPinsAgainChangesNothing : Prop :=
  ∀ s : State, s.Ready → s.PinsOutput → s.block.wf = true →
    ∃ t : State, exec .initPins s = .next t ∧ t.block = s.block ∧ t.padTrace = s.padTrace ∧
      t.busTrace.length = s.busTrace.length + 12

/-- R150: `CLOSE`: its word; refused where the interface was never opened or has aborted; the six safe levels in list
order, zero to both clear registers, `Unmap`; six latches, `mapped` and `life` change and nothing else does. The list
order (D7; notes/assumptions/18) and the two writes of zero (D9; notes/assumptions/19) are choices, which the spec marks
as its own. -/
def Obligations.CloseDrivesSafeLevels : Prop :=
  decode 0x6000 = .legal .closeIface ∧
  (∀ s : State, s.seq = .idle → s.life = .unopened ∨ s.life = .aborted →
    exec .closeIface s = .next { s with response := some (.refused .notOpen), refusedMark := true }) ∧
  ∀ s : State, s.Ready →
    let ls := s.cfg.safeIdle
    let es : List BusEvent := (ls.map fun pl => levelEvent s.cfg pl.1 pl.2) ++
      [.busWrite s.cfg.clrBase 0, .busWrite (s.cfg.clrBase + 1) 0, .unmap]
    exec .closeIface s = .next { s with
      block := s.block.withLatches ls
      busTrace := s.busTrace ++ es
      primTrace := s.primTrace ++ ls.map fun pl => .setLevel pl.1 pl.2
      padTrace := s.padTrace ++ padsAfter s.cfg s.block es
      mapped := false
      life := .closed
      response := none }

/-- R151: a second `CLOSE` performs nothing and responds with nothing. The source leaves this open; the no-op is the
choice taken (D10; notes/assumptions/20). -/
def Obligations.SecondCloseIsNoOp : Prop :=
  ∀ s : State, s.seq = .idle → s.life = .closed → exec .closeIface s = .next { s with response := none }

/-- R152: after `CLOSE` each controlled pin that is Output reads back at its safe level, whatever is drawn; one that is
not Output has its latch at the safe level and its pad undriven. -/
def Obligations.TeardownLeavesSafeLevels : Prop :=
  ∀ s : State, s.Ready → ∃ t : State, exec .closeIface s = .next t ∧
    ∀ pl ∈ s.cfg.safeIdle,
      (s.block.isOutput s.cfg pl.1 = true → (∀ n, t.block.lev t.cfg n pl.1 = pl.2) ∧
        t.block.pad t.cfg pl.1 = .driven pl.2) ∧
      (s.block.isOutput s.cfg pl.1 = false → t.block.latch pl.1 = pl.2 ∧ t.block.pad t.cfg pl.1 = .undriven)

/-- R198: with the interface open every legal command but `OPEN` completes: no refusal, no fatal cause, no error. -/
def Obligations.NoRuntimeErrors : Prop :=
  ∀ (s : State) (i : Instr), s.Ready → i.WellFormed → i ≠ .openIface →
    ∃ t : State, exec i s = .next t ∧ t.seq = .idle ∧ t.refusedMark = s.refusedMark ∧ t.fatalCause = s.fatalCause ∧
      (∀ why, t.response ≠ some (.refused why)) ∧ (∀ cause, t.response ≠ some (.fatal cause))

/-! ### The register control primitives -/

/-- R121: `SET_FUNCTION`: its word; refused unless the interface is open; one read and one write of the pin's
function-select register; the field is replaced, every other bit is kept, nothing else changes but the pads the write
moves. -/
def Obligations.SetFunctionWritesField : Prop :=
  ∀ (p : PinField) (f : PinFunction), p.toNat ≤ 57 →
    decode (0x2#4 ++ 0#5 ++ (match f with | .input => 0#1 | .output => 1#1) ++ p) = .legal (.setFunction p f) ∧
    NeedsOpen (.setFunction p f) ∧
    ∀ s : State, s.Ready →
    let n := p.toNat / 10
    let sh := (p.toNat % 10) * 3
    let v := s.block.fselWord n
    let code : FnCode := match f with | .input => s.cfg.fselInput | .output => s.cfg.fselOutput
    let v' := (v &&& ~~~(0b111#32 <<< sh)) ||| (code.setWidth 32 <<< sh)
    let b : Block := { s.block with fsel := s.block.fsel.setIfInBounds n v' }
    exec (.setFunction p f) s = .next { s with
      block := b
      busTrace := s.busTrace ++ [.busRead n v, .busWrite n v']
      primTrace := s.primTrace ++ [.setFunction p.toNat f]
      padTrace := s.padTrace ++ padChanges s.cfg s.block b
      response := none }

/-- R122, R91, R121: round trip and non-interference: the field reads back as the function's code, every other pin's field
and pad and every other register is as before, the latches are kept, and the pin's pad is driven by its latch when it is
made Output and undriven when it is made Input (corner cases e and f). -/
def Obligations.SetFunctionRoundTrip : Prop :=
  ∀ (s : State) (p : PinField) (f : PinFunction), s.Ready → p.toNat ≤ 57 →
    ∃ t : State, exec (.setFunction p f) s = .next t ∧
      t.block.field p.toNat = (match f with | .input => s.cfg.fselInput | .output => s.cfg.fselOutput) ∧
      t.block.pad t.cfg p.toNat =
        (match f with | .input => .undriven | .output => .driven (s.block.latch p.toNat)) ∧
      (∀ q ≤ 57, q ≠ p.toNat → t.block.pad t.cfg q = s.block.pad s.cfg q) ∧
      (∀ q ≤ 57, q ≠ p.toNat → t.block.field q = s.block.field q) ∧
      (∀ n, n ≠ p.toNat / 10 → t.block.fselWord n = s.block.fselWord n) ∧ t.block.olat = s.block.olat

/-- R124: `PIN_SET`: its word; refused unless the interface is open; one blind one-bit write to the set register; one
latch becomes 1 and nothing else changes but the pad it drives. -/
def Obligations.PinSetSetsOneLatch : Prop :=
  ∀ p : PinField, p.toNat ≤ 57 →
    decode (0x3#4 ++ 0#5 ++ 1#1 ++ p) = .legal (.pinSet p) ∧ NeedsOpen (.pinSet p) ∧
    ∀ s : State, s.Ready →
    let b : Block := { s.block with olat := s.block.olat ||| BitVec.twoPow 58 p.toNat }
    exec (.pinSet p) s = .next { s with
      block := b
      busTrace := s.busTrace ++ [.busWrite (s.cfg.setBase + p.toNat / 32) (1#32 <<< (p.toNat % 32))]
      primTrace := s.primTrace ++ [.setLevel p.toNat .high]
      padTrace := s.padTrace ++ padChanges s.cfg s.block b
      response := none }

/-- R125: `PIN_CLR`: its word; refused unless the interface is open; one blind one-bit write to the clear register; one
latch becomes 0 and nothing else changes but the pad it drives. -/
def Obligations.PinClrClearsOneLatch : Prop :=
  ∀ p : PinField, p.toNat ≤ 57 →
    decode (0x3#4 ++ 0#5 ++ 0#1 ++ p) = .legal (.pinClr p) ∧ NeedsOpen (.pinClr p) ∧
    ∀ s : State, s.Ready →
    let b : Block := { s.block with olat := s.block.olat &&& ~~~(BitVec.twoPow 58 p.toNat) }
    exec (.pinClr p) s = .next { s with
      block := b
      busTrace := s.busTrace ++ [.busWrite (s.cfg.clrBase + p.toNat / 32) (1#32 <<< (p.toNat % 32))]
      primTrace := s.primTrace ++ [.setLevel p.toNat .low]
      padTrace := s.padTrace ++ padChanges s.cfg s.block b
      response := none }

/-- The frame of `PIN_SET` and `PIN_CLR` pin by pin (R30, R33, R126): every other latch and every function field is as
before, and the pad trace shows the pin's pad changing exactly when it is Output and its level changes. -/
def Obligations.LevelWriteFrame : Prop :=
  ∀ (s : State) (p : PinField) (l : Level), s.Ready → p.toNat ≤ 57 →
    ∃ t : State, exec (setLevelCommand p l) s = .next t ∧
      (∀ q ≤ 57, t.block.latch q = if q = p.toNat then l else s.block.latch q) ∧
      t.block.fsel = s.block.fsel ∧
      t.padTrace = s.padTrace ++
        (if s.block.isOutput s.cfg p.toNat = true ∧ s.block.latch p.toNat ≠ l
          then [.change p.toNat (.driven (s.block.latch p.toNat)) (.driven l)] else [])

/-- R126: write-1-to-affect isolation, and last write wins, for Output pins: a level written to a pin reads back after any
level is written to any other pin, in the same word or the other, and after a second write to the pin the second does. -/
def Obligations.LevelIsolation : Prop :=
  ∀ (s : State) (p q : PinField) (l k : Level), s.Ready → p.toNat ≤ 57 → q.toNat ≤ 57 →
    s.block.isOutput s.cfg p.toNat = true →
    ∃ t u v : State, exec (setLevelCommand p l) s = .next t ∧ exec (setLevelCommand q k) t = .next u ∧
      exec (.getLevel p) u = .next v ∧ v.response = some (.level (if q = p then k else l))

/-- R127: `GET_LEVEL`: its word; refused unless the interface is open; one read of the level register; the response is
the latch of an Output pin, and for a pin that is not Output the level the environment draws at this read; nothing else
changes (the draw and its counter are the model's free value, notes/assumptions/7; the statement holds whatever is
drawn). -/
def Obligations.GetLevelReadsLevel : Prop :=
  ∀ p : PinField, p.toNat ≤ 57 →
    decode (0x4#4 ++ 0#6 ++ p) = .legal (.getLevel p) ∧ NeedsOpen (.getLevel p) ∧
    ∀ s : State, s.Ready →
    let l := if s.block.isOutput s.cfg p.toNat = true then s.block.latch p.toNat
      else Level.ofBit ((Config.levelDraw s.draws).getLsbD p.toNat)
    exec (.getLevel p) s = .next { s with
      busTrace := s.busTrace ++
        [.busRead (s.cfg.levBase + p.toNat / 32) (s.block.levelWord s.cfg s.draws (p.toNat / 32))]
      primTrace := s.primTrace ++ [.getLevel p.toNat l]
      response := some (.level l)
      draws := s.draws + 1 }

/-- R30, R33, R44 (a), R236: a level written while the pin is not Output lands in the latch, moves no pad, and shows on
the pad at once when the pin is made Output. That the latch takes a level while the pin is not Output is a presumption,
which R30 marks as general knowledge (D18; notes/assumptions/10). -/
def Obligations.HiddenLatchShowsWhenOutput : Prop :=
  ∀ (s : State) (p : PinField) (l : Level), s.Ready → p.toNat ≤ 57 → s.block.isOutput s.cfg p.toNat = false →
    ∃ t u : State, exec (setLevelCommand p l) s = .next t ∧
      t.padTrace = s.padTrace ∧ t.block.pad t.cfg p.toNat = .undriven ∧
      exec (.setFunction p .output) t = .next u ∧
      u.block.pad u.cfg p.toNat = .driven l ∧
      u.padTrace = t.padTrace ++ [.change p.toNat .undriven (.driven l)]

/-! ### The Register Block -/

/-- R24: a write to GPSETn sets the latch of every existing pin whose bit is 1 and touches nothing else of the block;
a read answers a free value (notes/assumptions/8). -/
def Obligations.SetPortSetsLatches : Prop :=
  ∀ (s : State) (n : Nat) (v : Word), s.cfg.Admissible → s.mapped = true → n < 2 →
    (∃ t : State, regWrite (s.cfg.setBase + n) v s = .next t ∧ t.block.fsel = s.block.fsel ∧
      ∀ p ≤ 57, t.block.latch p = if p / 32 = n ∧ v.getLsbD (p % 32) = true then .high else s.block.latch p) ∧
    (∃ u : State, regRead (s.cfg.setBase + n) s = .next u ∧ u.seq.tmp = some (Config.portDraw s.draws) ∧
      u.block = s.block)

/-- R25: a write to GPCLRn clears the latch of every existing pin whose bit is 1 and touches nothing else of the block,
so a write of 0 changes nothing; a read answers a free value (notes/assumptions/8). -/
def Obligations.ClearPortClearsLatches : Prop :=
  ∀ (s : State) (n : Nat) (v : Word), s.cfg.Admissible → s.mapped = true → n < 2 →
    (∃ t : State, regWrite (s.cfg.clrBase + n) v s = .next t ∧ t.block.fsel = s.block.fsel ∧
      (∀ p ≤ 57, t.block.latch p = if p / 32 = n ∧ v.getLsbD (p % 32) = true then .low else s.block.latch p) ∧
      (v = 0 → t.block = s.block)) ∧
    (∃ u : State, regRead (s.cfg.clrBase + n) s = .next u ∧ u.seq.tmp = some (Config.portDraw s.draws) ∧
      u.block = s.block)

/-- R26: a read of GPLEVn returns the level of every existing pin in its bit and zero elsewhere, with no effect on the
block; a write to it is ignored. -/
def Obligations.LevelRegisterReadsLevels : Prop :=
  ∀ (s : State) (n : Nat) (v : Word), s.cfg.Admissible → s.mapped = true → n < 2 →
    (∃ (t : State) (r : Word), regRead (s.cfg.levBase + n) s = .next t ∧ t.seq.tmp = some r ∧ t.block = s.block ∧
      t.busTrace = s.busTrace ++ [.busRead (s.cfg.levBase + n) r] ∧
      ∀ i < 32, r.getLsbD i =
        if 32 * n + i ≤ 57 then (s.block.lev s.cfg s.draws (32 * n + i)).toBit else false) ∧
    (∃ u : State, regWrite (s.cfg.levBase + n) v s = .next u ∧ u.block = s.block)

/-- R22, R23: a GPFSELn word is plain storage with its reserved bits zero: a write replaces its other bits, touches no
other register and no latch, and a read returns what was written less the reserved bits. -/
def Obligations.FunctionSelectStorage : Prop :=
  ∀ (s : State) (n : Nat) (v : Word), s.cfg.Admissible → s.mapped = true → n < 6 →
    ∃ t u : State, regWrite n v s = .next t ∧ t.block.olat = s.block.olat ∧
      (∀ k, k ≠ n → t.block.fselWord k = s.block.fselWord k) ∧
      regRead n t = .next u ∧ u.block = t.block ∧
      u.seq.tmp = some (v &&& (if n = 5 then 0x00FFFFFF#32 else 0x3FFFFFFF#32))

/-- R61, R66: while mapped an access to a word the map does not list is refused, and while nothing is mapped every
access is (the model's stops, notes/assumptions/29). -/
def Obligations.UnlistedAndUnmappedRefused : Prop :=
  ∀ (s : State) (w : Nat) (v : Word), s.cfg.Admissible →
    (s.mapped = true → w ∉ s.cfg.regWords →
      regRead w s = .refused .unlistedWord ∧ regWrite w v s = .refused .unlistedWord) ∧
    (s.mapped = false → regRead w s = .refused .unmappedAccess ∧ regWrite w v s = .refused .unmappedAccess)

/-- R68: for every listed register the same write twice leaves the block as once. -/
def Obligations.WritesIdempotent : Prop :=
  ∀ (s t u : State) (w : Nat) (v : Word), regWrite w v s = .next t → regWrite w v t = .next u → u.block = t.block

/-- R235: every write of a command to a set or clear register has exactly one bit set, but the zeros of `CLOSE`. -/
def Obligations.OneBitPatternsOnly : Prop :=
  ∀ (s t : State) (i : Instr), s.Ready → exec i s = .next t →
    ∀ (w : Nat) (v : Word), .busWrite w v ∈ t.busTrace.drop s.busTrace.length →
      w ∈ [s.cfg.setBase, s.cfg.setBase + 1, s.cfg.clrBase, s.cfg.clrBase + 1] →
      (∃ k < 32, v = 1#32 <<< k) ∨ (i = .closeIface ∧ v = 0)

/-! ### The shift-register byte writer -/

/-- R160: `SR_WRITE`: its word; refused unless the interface is open; it performs exactly the listing, least significant
bit first, with `Delay(e)` after each level write where `e > 0`, and changes nothing else. -/
def Obligations.SrWriteFollowsListing : Prop :=
  ∀ byte : Byte, decode (0x8#4 ++ 0#4 ++ byte) = .legal (.srWrite byte) ∧ NeedsOpen (.srWrite byte) ∧
    ∀ s : State, s.Ready →
    let e := s.cfg.srEdgeDelay
    let d : List PrimEvent := if e = 0 then [] else [.delay e]
    let put (p : Nat) (l : Level) : List PrimEvent := .setLevel p l :: d
    let bit (i : Nat) : List PrimEvent :=
      put s.cfg.pinSrData (if byte.getLsbD i then .high else .low) ++ put s.cfg.pinSrShclk .low ++
      put s.cfg.pinSrShclk .high
    exec (.srWrite byte) s = .next (s.afterPrims (
      bit 0 ++ bit 1 ++ bit 2 ++ bit 3 ++ bit 4 ++ bit 5 ++ bit 6 ++ bit 7 ++
      put s.cfg.pinSrLatch .low ++ put s.cfg.pinSrLatch .high))

/-- R161 with no edge delay: 26 bus writes and no other bus event, to the first set and clear words only. -/
def Obligations.SrWriteBusTrace : Prop :=
  ∀ (s : State) (byte : Byte), s.Ready → s.cfg.srEdgeDelay = 0 →
    let one (p : Nat) : BusEvent := .busWrite s.cfg.setBase (1#32 <<< p)
    let zero (p : Nat) : BusEvent := .busWrite s.cfg.clrBase (1#32 <<< p)
    let es : List BusEvent := ((List.range 8).flatMap fun i =>
      [if byte.getLsbD i then one s.cfg.pinSrData else zero s.cfg.pinSrData,
       zero s.cfg.pinSrShclk, one s.cfg.pinSrShclk]) ++ [zero s.cfg.pinSrLatch, one s.cfg.pinSrLatch]
    ∃ t : State, exec (.srWrite byte) s = .next t ∧ t.busTrace = s.busTrace ++ es ∧ es.length = 26

/-- R162: the end state: the data latch holds bit 7, both clock latches are 1, every other latch and every function
field is as before, whatever the state before; and a second call with the same byte adds the same bus events and
leaves the block as it is. -/
def Obligations.SrWriteEndState : Prop :=
  ∀ (s : State) (byte : Byte), s.Ready → ∃ t u : State, ∃ es : List BusEvent,
    exec (.srWrite byte) s = .next t ∧
    t.block = s.block.withLatches [(s.cfg.pinSrData, if byte.getLsbD 7 then .high else .low),
      (s.cfg.pinSrShclk, .high), (s.cfg.pinSrLatch, .high)] ∧
    t.busTrace = s.busTrace ++ es ∧
    exec (.srWrite byte) t = .next u ∧ u.block = t.block ∧ u.busTrace = t.busTrace ++ es

/-- R163: the edges on the pads, the three pins being Output: eight rises of the shift clock, one of the latch clock;
the falls depend on the levels at entry. -/
def Obligations.SrWriteEdges : Prop :=
  ∀ (s : State) (byte : Byte), s.Ready →
    (∀ p ∈ [s.cfg.pinSrData, s.cfg.pinSrShclk, s.cfg.pinSrLatch], s.block.isOutput s.cfg p = true) →
    ∃ (t : State) (es : List PadEvent), exec (.srWrite byte) s = .next t ∧ t.padTrace = s.padTrace ++ es ∧
      rises s.cfg.pinSrShclk es = 8 ∧ rises s.cfg.pinSrLatch es = 1 ∧
      falls s.cfg.pinSrShclk es = (if s.block.latch s.cfg.pinSrShclk = .high then 8 else 7) ∧
      falls s.cfg.pinSrLatch es = (if s.block.latch s.cfg.pinSrLatch = .high then 1 else 0)

/-- R164, the headline of SAKS §8: the line monitor samples bit `i` of the byte at the `i`-th shift-clock rise, least
significant first, and emits exactly one latched byte, from any Output state. -/
def Obligations.SrMonitorLatchesByte : Prop :=
  ∀ (s : State) (byte : Byte) (m : SrMonitor), s.Ready →
    (∀ p ∈ [s.cfg.pinSrData, s.cfg.pinSrShclk, s.cfg.pinSrLatch], s.block.isOutput s.cfg p = true) →
    m.data = s.block.pad s.cfg s.cfg.pinSrData →
    ∃ (t : State) (es : List PadEvent), exec (.srWrite byte) s = .next t ∧ t.padTrace = s.padTrace ++ es ∧
      let sent : List Pad := (List.range 8).map fun i => .driven (if byte.getLsbD i then .high else .low)
      m.watch s.cfg es = ⟨t.block.pad s.cfg s.cfg.pinSrData, m.shifted ++ sent, m.latched ++ [sent]⟩

/-! ### The 2-wire display writer -/

/-- R171: `DISP_START`: its word; refused unless the interface is open; it performs exactly the listing and changes
nothing else. -/
def Obligations.DispStartFollowsListing : Prop :=
  decode 0x9000 = .legal .dispStart ∧ NeedsOpen .dispStart ∧
  ∀ s : State, s.Ready →
    let dc := s.cfg.pinDispClk
    let dd := s.cfg.pinDispData
    exec .dispStart s = .next (s.afterPrims
      [.setLevel dc .high, .setLevel dd .high, .delay 1, .setLevel dd .low, .delay 1, .setLevel dc .low, .delay 1])

/-- R172: the end state and the pad events of `DISP_START` by entry levels, both pins being Output; in all four cases
the line monitor sees exactly one start marker. -/
def Obligations.DispStartPadEvents : Prop :=
  ∀ s : State, s.Ready → s.block.isOutput s.cfg s.cfg.pinDispClk = true →
    s.block.isOutput s.cfg s.cfg.pinDispData = true →
    let dc := s.cfg.pinDispClk
    let dd := s.cfg.pinDispData
    let up (p : Nat) : PadEvent := .change p (.driven .low) (.driven .high)
    let down (p : Nat) : PadEvent := .change p (.driven .high) (.driven .low)
    let es : List PadEvent := match s.block.latch dc, s.block.latch dd with
      | .high, .high => [.delay 1, down dd, .delay 1, down dc, .delay 1]
      | .low, .low => [up dc, up dd, .delay 1, down dd, .delay 1, down dc, .delay 1]
      | .low, .high => [up dc, .delay 1, down dd, .delay 1, down dc, .delay 1]
      | .high, .low => [up dd, .delay 1, down dd, .delay 1, down dc, .delay 1]
    ∃ t : State, exec .dispStart s = .next t ∧ t.block = s.block.withLatches [(dc, .low), (dd, .low)] ∧
      t.padTrace = s.padTrace ++ es ∧
      ∀ m : DispMonitor, m.clock = s.block.pad s.cfg dc → m.data = s.block.pad s.cfg dd →
        (m.watch s.cfg es).markers = m.markers + 1 ∧ (m.watch s.cfg es).bits = []

/-- R173: `DISP_BYTE`: its word; refused unless the interface is open; it performs exactly the listing, least
significant bit first, then the forced acknowledge pulse, and changes nothing else. -/
def Obligations.DispByteFollowsListing : Prop :=
  ∀ byte : Byte, decode (0xA#4 ++ 0#4 ++ byte) = .legal (.dispByte byte) ∧ NeedsOpen (.dispByte byte) ∧
    ∀ s : State, s.Ready →
    let clocked (l : Level) : List PrimEvent :=
      [.setLevel s.cfg.pinDispClk .low, .delay 1, .setLevel s.cfg.pinDispData l, .delay 1,
       .setLevel s.cfg.pinDispClk .high, .delay 1]
    let bit (i : Nat) : List PrimEvent := clocked (if byte.getLsbD i then .high else .low)
    exec (.dispByte byte) s = .next (s.afterPrims (
      bit 0 ++ bit 1 ++ bit 2 ++ bit 3 ++ bit 4 ++ bit 5 ++ bit 6 ++ bit 7 ++ clocked .high))

/-- R174: the end state, and the edges from any entry levels, both pins being Output: nine clock rises, at which the
line monitor samples the eight bits and then High, and no start marker. -/
def Obligations.DispByteEdges : Prop :=
  ∀ (s : State) (byte : Byte) (m : DispMonitor), s.Ready → s.block.isOutput s.cfg s.cfg.pinDispClk = true →
    s.block.isOutput s.cfg s.cfg.pinDispData = true →
    m.clock = s.block.pad s.cfg s.cfg.pinDispClk → m.data = s.block.pad s.cfg s.cfg.pinDispData →
    ∃ (t : State) (es : List PadEvent), exec (.dispByte byte) s = .next t ∧
      t.block = s.block.withLatches [(s.cfg.pinDispClk, .high), (s.cfg.pinDispData, .high)] ∧
      t.padTrace = s.padTrace ++ es ∧ rises s.cfg.pinDispClk es = 9 ∧
      (m.watch s.cfg es).frames = m.frames ∧
      (m.watch s.cfg es).bits = m.bits ++
        ((List.range 8).map fun i => Pad.driven (if byte.getLsbD i then .high else .low)) ++ [.driven .high]

/-- R175: `DISP_CMD byte`: its word; refused unless the interface is open; 68 micro-operations; it is `DISP_START`,
`DISP_BYTE byte`, `DISP_START` back to back: the same next state, traces included. -/
def Obligations.DispCmdIsStartByteStart : Prop :=
  ∀ byte : Byte, decode (0xB#4 ++ 0#4 ++ byte) = .legal (.dispCmd byte) ∧ NeedsOpen (.dispCmd byte) ∧
    (∀ (c : Config) (e : Env), (expansion c e (.dispCmd byte)).length = 68) ∧
    ∀ s : State, s.Ready → ∃ t u v : State,
    exec .dispStart s = .next t ∧ exec (.dispByte byte) t = .next u ∧ exec .dispStart u = .next v ∧
    exec (.dispCmd byte) s = .next v

/-- R176: the whole of a display command: 35 level writes and 33 delays, both lines Low at the end, and on the pads two
start markers with nothing between them but the nine samples of the byte; before the first marker the clock rises once
more if it was Low at entry. -/
def Obligations.DispCmdFrame : Prop :=
  ∀ (s : State) (byte : Byte) (m : DispMonitor), s.Ready → s.block.isOutput s.cfg s.cfg.pinDispClk = true →
    s.block.isOutput s.cfg s.cfg.pinDispData = true →
    m.clock = s.block.pad s.cfg s.cfg.pinDispClk → m.data = s.block.pad s.cfg s.cfg.pinDispData →
    let entryLow := s.block.latch s.cfg.pinDispClk = .low
    ∃ (t : State) (ps : List PrimEvent) (es : List PadEvent),
      exec (.dispCmd byte) s = .next t ∧
      t.primTrace = s.primTrace ++ ps ∧ ps.length = 68 ∧ ps.count (.delay 1) = 33 ∧
      (∀ e ∈ ps, e = .delay 1 ∨ ∃ l, e = .setLevel s.cfg.pinDispClk l ∨ e = .setLevel s.cfg.pinDispData l) ∧
      t.block = s.block.withLatches [(s.cfg.pinDispClk, .low), (s.cfg.pinDispData, .low)] ∧
      t.padTrace = s.padTrace ++ es ∧
      rises s.cfg.pinDispClk es = (if entryLow then 10 else 9) ∧
      (m.watch s.cfg es).frames = m.frames ++
        [m.bits ++ (if entryLow then [.driven (s.block.latch s.cfg.pinDispData)] else []),
         ((List.range 8).map fun i => Pad.driven (if byte.getLsbD i then .high else .low)) ++ [.driven .high]] ∧
      (m.watch s.cfg es).bits = []

/-- R180: the delay units of the display commands. -/
def Obligations.DisplayDelayCounts : Prop :=
  ∀ (s : State) (byte : Byte), s.Ready →
    (∃ t, exec .dispStart s = .next t ∧ t.elapsedUnits = s.elapsedUnits + 3) ∧
    (∃ t, exec (.dispByte byte) s = .next t ∧ t.elapsedUnits = s.elapsedUnits + 27) ∧
    (∃ t, exec (.dispCmd byte) s = .next t ∧ t.elapsedUnits = s.elapsedUnits + 33)

/-- R110, R161: the number of micro-operations of every expansion; with no edge delay none is longer than 68 (R41). -/
def Obligations.MicroOperationCounts : Prop :=
  ∀ (c : Config) (e : Env) (i : Instr), (expansion c e i).length =
    match i with
    | .openIface => 1
    | .setFunction _ _ => 2
    | .pinSet _ => 1
    | .pinClr _ => 1
    | .getLevel _ => 1
    | .initPins => 12
    | .closeIface => 9
    | .srWrite _ => if c.srEdgeDelay = 0 then 26 else 52
    | .dispStart => 7
    | .dispByte _ => 54
    | .dispCmd _ => 68
end

