-- ==== Sys2Proof/Laws/Block.lean ====
section
/-! SUPPORT. The Register Block: where the twelve registers are, and what a write does to latches, fields and pads
(spec/10_state.md). -/

namespace Sys2Proof.Machine

/-! ### The register map under an admissible configuration -/

theorem regOf_fsel {c : Config} (h : c.Admissible) {w : Nat} (hw : w < 6) :
    regOf c w = some (.fsel ⟨w, hw⟩) := by
  have hlt : w < c.blockWords := by
    refine h.2.2.1 w ?_
    simp only [Config.regWords, List.mem_cons]
    omega
  simp [regOf, Nat.not_le.mpr hlt, hw]

/-- The twelve word indexes are apart and inside the block (R11). -/
theorem regWords_apart {c : Config} (h : c.Admissible) :
    (6 ≤ c.setBase ∧ 6 ≤ c.clrBase ∧ 6 ≤ c.levBase) ∧
    (c.setBase + 1 < c.blockWords ∧ c.clrBase + 1 < c.blockWords ∧ c.levBase + 1 < c.blockWords) ∧
    (c.setBase + 1 < c.clrBase ∨ c.clrBase + 1 < c.setBase) ∧
    (c.setBase + 1 < c.levBase ∨ c.levBase + 1 < c.setBase) ∧
    (c.clrBase + 1 < c.levBase ∨ c.levBase + 1 < c.clrBase) := by
  obtain ⟨-, hd, hb, -⟩ := h
  simp only [Config.regWords, List.nodup_cons, List.mem_cons, not_or, List.not_mem_nil, or_false] at hd
  have b1 : c.setBase + 1 < c.blockWords := hb _ (by simp [Config.regWords])
  have b2 : c.clrBase + 1 < c.blockWords := hb _ (by simp [Config.regWords])
  have b3 : c.levBase + 1 < c.blockWords := hb _ (by simp [Config.regWords])
  omega

theorem regOf_set {c : Config} (h : c.Admissible) {n : Nat} (hn : n < 2) :
    regOf c (c.setBase + n) = some (.set ⟨n, hn⟩) := by
  have ha := regWords_apart h
  unfold regOf
  rw [if_neg (by omega), dif_neg (by omega)]
  obtain rfl | rfl : n = 0 ∨ n = 1 := by omega
  · rw [if_pos (by omega)]; rfl
  · rw [if_neg (by omega), if_pos rfl]; rfl

theorem regOf_clr {c : Config} (h : c.Admissible) {n : Nat} (hn : n < 2) :
    regOf c (c.clrBase + n) = some (.clr ⟨n, hn⟩) := by
  have ha := regWords_apart h
  unfold regOf
  rw [if_neg (by omega), dif_neg (by omega), if_neg (by omega), if_neg (by omega)]
  obtain rfl | rfl : n = 0 ∨ n = 1 := by omega
  · rw [if_pos (by omega)]; rfl
  · rw [if_neg (by omega), if_pos rfl]; rfl

theorem regOf_lev {c : Config} (h : c.Admissible) {n : Nat} (hn : n < 2) :
    regOf c (c.levBase + n) = some (.lev ⟨n, hn⟩) := by
  have ha := regWords_apart h
  unfold regOf
  rw [if_neg (by omega), dif_neg (by omega), if_neg (by omega), if_neg (by omega), if_neg (by omega),
    if_neg (by omega)]
  obtain rfl | rfl : n = 0 ∨ n = 1 := by omega
  · rw [if_pos (by omega)]; rfl
  · rw [if_neg (by omega), if_pos rfl]; rfl

/-- The register at an index is the one the map of R21 names. -/
theorem regOf_word {c : Config} {w : Nat} {r : Reg} (h : regOf c w = some r) :
    w = match r with
      | .fsel n => n.val
      | .set n => c.setBase + n.val
      | .clr n => c.clrBase + n.val
      | .lev n => c.levBase + n.val := by
  unfold regOf at h
  split at h
  · cases h
  · split at h
    · cases h; rfl
    · repeat' (split at h)
      all_goals first
        | (cases h; simp_all)
        | cases h

/-! ### Latches -/

theorem latchBits_oneBit {p : Nat} (hp : p < 58) : latchBits (wordIndex p) (oneBit p) = BitVec.twoPow 58 p := by
  have : ∀ q : Fin 58, latchBits (wordIndex q) (oneBit q) = BitVec.twoPow 58 q := by decide
  exact this ⟨p, hp⟩

/-- The write of `SET_LEVEL(p, l)` sets the latch of `p` and does nothing else (R124, R125). -/
theorem blockEvent_levelEvent {c : Config} (h : c.Admissible) (b : Block) {p : Nat} (hp : p < 58) (l : Level) :
    blockEvent c b (levelEvent c p l) = b.withLatch p l := by
  have hw : wordIndex p < 2 := by simp only [wordIndex]; omega
  cases l
  · simp [levelEvent, levelWord, blockEvent, regOf_clr h hw, Block.write, Block.withLatch, latchBits_oneBit hp]
  · simp [levelEvent, levelWord, blockEvent, regOf_set h hw, Block.write, Block.withLatch, latchBits_oneBit hp]

@[simp] theorem withLatch_fsel (b : Block) (p : Nat) (l : Level) : (b.withLatch p l).fsel = b.fsel := by
  cases l <;> rfl

@[simp] theorem withLatch_field (b : Block) (p q : Nat) (l : Level) : (b.withLatch p l).field q = b.field q := by
  simp [Block.field, Block.fselWord]

@[simp] theorem withLatch_isOutput (c : Config) (b : Block) (p q : Nat) (l : Level) :
    (b.withLatch p l).isOutput c q = b.isOutput c q := by
  simp [Block.isOutput]

/-- A level write changes one latch (R24, R25, R126). -/
theorem withLatch_latch (b : Block) {p q : Nat} (hp : p < 58) (l : Level) :
    (b.withLatch p l).latch q = if q = p then l else b.latch q := by
  cases l
  · by_cases h : q = p
    · subst h; simp [Block.withLatch, Block.latch, hp, Level.ofBit]
    · by_cases hq : q < 58
      · simp [Block.withLatch, Block.latch, h, hq]
      · simp [Block.withLatch, Block.latch, h, BitVec.getLsbD_of_ge _ _ (Nat.not_lt.mp hq)]
  · by_cases h : q = p
    · subst h; simp [Block.withLatch, Block.latch, hp, Level.ofBit]
    · have h' : ¬ p = q := fun e => h e.symm
      simp [Block.withLatch, Block.latch, h, h']

theorem withLatch_pad (c : Config) (b : Block) {p q : Nat} (hp : p < 58) (l : Level) :
    (b.withLatch p l).pad c q =
      if q = p then (if b.isOutput c p then .driven l else .undriven) else b.pad c q := by
  by_cases h : q = p
  · subst h; simp [Block.pad, withLatch_latch b hp]
  · simp [Block.pad, withLatch_latch b hp, h]

@[simp] theorem withLatches_nil (b : Block) : b.withLatches [] = b := rfl
@[simp] theorem withLatches_cons (b : Block) (p : Nat) (l : Level) (ls : List (Nat × Level)) :
    b.withLatches ((p, l) :: ls) = (b.withLatch p l).withLatches ls := rfl

/-- Bit `p` of the latches a set or clear write names (R24, R25, R27). -/
theorem latchBits_getLsbD {n : Nat} (hn : n < 2) (v : Word) {p : Nat} (hp : p < 58) :
    (latchBits n v).getLsbD p = (decide (p / 32 = n) && v.getLsbD (p % 32)) := by
  simp only [latchBits, BitVec.getLsbD_shiftLeft, BitVec.getLsbD_setWidth, hp, decide_true, Bool.true_and]
  obtain rfl | rfl : n = 0 ∨ n = 1 := by omega
  · by_cases h : p < 32
    · have h1 : p / 32 = 0 := by omega
      have h2 : p % 32 = p := by omega
      simp [h1, h2]; omega
    · have h1 : ¬ p / 32 = 0 := by omega
      simp only [h1, decide_false, Bool.false_and]
      rw [BitVec.getLsbD_of_ge _ _ (by omega)]; simp
  · by_cases h : p < 32
    · have h1 : ¬ p / 32 = 1 := by omega
      simp [h1, h]
    · have h1 : p / 32 = 1 := by omega
      have h2 : p % 32 = p - 32 := by omega
      have h3 : p - 32 < 58 := by omega
      simp [h1, h2, h3, h]

/-- A write of 0 to a clear register changes nothing (R25). -/
theorem blockEvent_clr_zero {c : Config} (h : c.Admissible) (b : Block) {n : Nat} (hn : n < 2) :
    blockEvent c b (.busWrite (c.clrBase + n) 0) = b := by
  have hz : latchBits n 0 = 0 := by
    obtain rfl | rfl : n = 0 ∨ n = 1 := by omega
    · rfl
    · rfl
  have ha : ∀ o : Latches, o &&& ~~~(0#58) = o := by
    intro o
    apply BitVec.eq_of_getLsbD_eq
    intro i hi
    rw [BitVec.getLsbD_and, BitVec.getLsbD_not]
    simp [hi]
  simp only [blockEvent, regOf_clr h hn, Block.write, hz]
  exact congrArg (Block.mk b.fsel) (ha b.olat)

@[simp] theorem withLatches_isOutput (c : Config) (b : Block) (ls : List (Nat × Level)) (q : Nat) :
    (b.withLatches ls).isOutput c q = b.isOutput c q := by
  induction ls generalizing b with
  | nil => rfl
  | cons a ls ih => obtain ⟨p, l⟩ := a; rw [withLatches_cons, ih]; simp

/-- A pin that a list of level writes does not name keeps its latch. -/
theorem withLatches_latch_other (b : Block) (ls : List (Nat × Level)) (hl : ∀ pl ∈ ls, pl.1 < 58) {p : Nat}
    (hp : p ∉ ls.map Prod.fst) : (b.withLatches ls).latch p = b.latch p := by
  induction ls generalizing b with
  | nil => rfl
  | cons a ls ih =>
    obtain ⟨q, k⟩ := a
    simp only [List.map_cons, List.mem_cons, not_or] at hp
    rw [withLatches_cons, ih _ (fun pl h => hl pl (by simp [h])) hp.2, withLatch_latch _ (hl (q, k) (by simp)),
      if_neg hp.1]

/-- After a list of level writes to different pins every pin of the list has its level. -/
theorem withLatches_latch (b : Block) (ls : List (Nat × Level)) (hl : ∀ pl ∈ ls, pl.1 < 58)
    (hn : (ls.map Prod.fst).Nodup) : ∀ pl ∈ ls, (b.withLatches ls).latch pl.1 = pl.2 := by
  induction ls generalizing b with
  | nil => simp
  | cons a ls ih =>
    obtain ⟨p, l⟩ := a
    have hn' := List.nodup_cons.mp hn
    have hr : ∀ pl ∈ ls, pl.1 < 58 := fun pl h => hl pl (by simp [h])
    intro pl hpl
    rcases List.mem_cons.mp hpl with rfl | hpl
    · rw [withLatches_cons, withLatches_latch_other _ _ hr hn'.1, withLatch_latch _ (hl (p, l) (by simp)), if_pos rfl]
    · exact ih _ hr hn'.2 pl hpl

/-- The latches decide a Register Block with given fields. -/
theorem Block.ext_latch {b b' : Block} (hf : b.fsel = b'.fsel) (hl : ∀ p < 58, b.latch p = b'.latch p) : b = b' := by
  obtain ⟨f, o⟩ := b
  obtain ⟨f', o'⟩ := b'
  simp only at hf
  subst hf
  congr 1
  apply BitVec.eq_of_getLsbD_eq
  intro i hi
  have := hl i hi
  simp only [Block.latch] at this
  cases h1 : o.getLsbD i <;> cases h2 : o'.getLsbD i <;> simp_all [Level.ofBit]

/-! ### Pads -/

/-- A level write changes at most the pad of its own pin, and that only while the pin is Output (R33). -/
theorem padChanges_withLatch (c : Config) (b : Block) {p : Nat} (hp : p < 58) (l : Level) :
    padChanges c b (b.withLatch p l) =
      if b.isOutput c p = true ∧ b.latch p ≠ l then [.change p (.driven (b.latch p)) (.driven l)] else [] := by
  have key : ∀ q, (if b.pad c q = (b.withLatch p l).pad c q then none
        else some (PadEvent.change q (b.pad c q) ((b.withLatch p l).pad c q))) =
      if q = p then (if b.isOutput c p = true ∧ b.latch p ≠ l
        then some (.change p (.driven (b.latch p)) (.driven l)) else none) else none := by
    intro q
    rw [withLatch_pad c b hp]
    by_cases h : q = p
    · subst h
      by_cases ho : b.isOutput c q = true
      · by_cases hl : b.latch q = l <;> simp [Block.pad, ho, hl]
      · simp [Block.pad, ho]
    · simp [h]
  unfold padChanges
  simp only [key]
  by_cases hc : b.isOutput c p = true ∧ b.latch p ≠ l
  · simp only [if_pos hc]
    have hsplit : List.range npins = List.range p ++ p :: (List.range (npins - (p + 1))).map (· + (p + 1)) := by
      have h1 : npins = p + (1 + (npins - (p + 1))) := by simp only [npins]; omega
      conv_lhs => rw [h1]
      rw [List.range_add, Nat.add_comm 1, List.range_succ_eq_map]
      simp only [List.map_cons, List.map_map, Nat.add_zero]
      congr 2
      apply List.map_congr_left
      intro a _
      simp [Function.comp]
      omega
    rw [hsplit, List.filterMap_append, List.filterMap_cons, if_pos rfl]
    have e1 : (List.range p).filterMap (fun q => if q = p then
        some (PadEvent.change p (.driven (b.latch p)) (.driven l)) else none) = [] := by
      rw [List.filterMap_eq_nil_iff]
      intro a ha
      have := List.mem_range.mp ha
      rw [if_neg (by omega)]
    have e2 : ((List.range (npins - (p + 1))).map (· + (p + 1))).filterMap (fun q => if q = p then
        some (PadEvent.change p (.driven (b.latch p)) (.driven l)) else none) = [] := by
      rw [List.filterMap_eq_nil_iff]
      intro a ha
      obtain ⟨x, -, rfl⟩ := List.mem_map.mp ha
      rw [if_neg (by omega)]
    rw [e1, e2]
    rfl
  · simp [if_neg hc]

theorem padChanges_self (c : Config) (b : Block) : padChanges c b b = [] := by
  simp [padChanges]

/-- Where only the pad of `p` may differ, the pad events are at most the one of `p` (R17, R33). -/
theorem padChanges_one (c : Config) {b b' : Block} {p : Nat} (hp : p < 58) (h : ∀ q, q ≠ p → b'.pad c q = b.pad c q) :
    padChanges c b b' = if b.pad c p = b'.pad c p then [] else [.change p (b.pad c p) (b'.pad c p)] := by
  obtain ⟨x, hx⟩ : ∃ x, x = (if b.pad c p = b'.pad c p then none
    else some (PadEvent.change p (b.pad c p) (b'.pad c p))) := ⟨_, rfl⟩
  have key : (fun q => if b.pad c q = b'.pad c q then none
        else some (PadEvent.change q (b.pad c q) (b'.pad c q))) = fun q => if q = p then x else none := by
    funext q
    by_cases hq : q = p
    · subst hq; simp [hx]
    · simp [hq, h q hq]
  have hall : ∀ l : List Nat, l.Nodup →
      (l.filterMap fun q => if q = p then x else none) = if p ∈ l then x.toList else [] := by
    intro l
    induction l with
    | nil => simp
    | cons a l ih =>
      intro hn
      have ih := ih (List.nodup_cons.mp hn).2
      by_cases ha : a = p
      · subst ha
        have hnot := (List.nodup_cons.mp hn).1
        cases x <;> simp [ih, hnot]
      · rw [List.filterMap_cons, if_neg ha, ih]
        simp [Ne.symm ha]
  unfold padChanges
  rw [key, hall _ List.nodup_range, if_pos (by simp [npins]; omega), hx]
  split <;> rfl

/-! ### Function fields -/

/-- The field update of R94 inside and outside the field. -/
theorem updateField_getLsbD (v : Word) (s : Nat) (code : FnCode) (i : Nat) :
    (updateField v s code).getLsbD i =
      if s ≤ i ∧ i < s + 3 then decide (i < 32) && code.getLsbD (i - s) else v.getLsbD i := by
  simp only [updateField, BitVec.getLsbD_or, BitVec.getLsbD_and, BitVec.getLsbD_not, BitVec.getLsbD_shiftLeft,
    BitVec.getLsbD_setWidth]
  have h7 : ∀ j, (0b111#32).getLsbD j = decide (j < 3) := by
    intro j
    by_cases hj : j < 3
    · obtain rfl | rfl | rfl : j = 0 ∨ j = 1 ∨ j = 2 := by omega
      all_goals rfl
    · simp only [hj, decide_false]
      by_cases h32 : j < 32
      · have : ∀ k : Fin 32, ¬ k.val < 3 → (0b111#32).getLsbD k = false := by decide
        exact this ⟨j, h32⟩ hj
      · exact BitVec.getLsbD_of_ge _ _ (by omega)
  rw [h7]
  by_cases h32 : i < 32
  · by_cases hs : s ≤ i
    · by_cases h3 : i < s + 3
      · have : i - s < 3 := by omega
        have h' : i - s < 32 := by omega
        simp [h32, hs, h3, this, h', Nat.not_lt.mpr hs]
      · have : ¬ i - s < 3 := by omega
        have hc : code.getLsbD (i - s) = false := BitVec.getLsbD_of_ge _ _ (by omega)
        simp [h32, h3, this, hc]
    · simp [h32, hs, Nat.lt_of_not_le hs]
  · have hv : v.getLsbD i = false := BitVec.getLsbD_of_ge _ _ (by omega)
    simp [h32, hv]

theorem fselMask_getLsbD (n i : Nat) : (fselMask n).getLsbD i = decide (i < if n = 5 then 24 else 30) := by
  have h5 : ∀ k : Fin 32, (0x00FFFFFF#32).getLsbD k = decide (k.val < 24) := by decide
  have h4 : ∀ k : Fin 32, (0x3FFFFFFF#32).getLsbD k = decide (k.val < 30) := by decide
  by_cases hi : i < 32
  · by_cases h : n = 5
    · simp only [fselMask, h, if_true]; exact h5 ⟨i, hi⟩
    · simp only [fselMask, h, if_false]; exact h4 ⟨i, hi⟩
  · rw [BitVec.getLsbD_of_ge _ _ (by omega)]
    split <;> simp <;> omega

/-- The field of a pin lies inside the bits of its register that hold fields (R22, R23). -/
theorem field_in_mask {p : Nat} (hp : p < 58) : fselShift p + 3 ≤ if fselIndex p = 5 then 24 else 30 := by
  by_cases h : fselIndex p = 5
  · rw [if_pos h]; simp only [fselShift, fselIndex] at h ⊢; omega
  · rw [if_neg h]; simp only [fselShift]; omega

theorem fselWord_masked (b : Block) (n : Nat) : b.fselWord n &&& fselMask n = b.fselWord n := by
  unfold Block.fselWord
  split
  · simp [BitVec.and_assoc]
  · simp

/-- A field update of a masked word needs no masking: `SET_FUNCTION` writes no reserved bit (R23). -/
theorem updateField_masked {p : Nat} (hp : p < 58) {v : Word} (hv : v &&& fselMask (fselIndex p) = v)
    (code : FnCode) :
    updateField v (fselShift p) code &&& fselMask (fselIndex p) = updateField v (fselShift p) code := by
  apply BitVec.eq_of_getLsbD_eq
  intro i hi
  have hm := field_in_mask hp
  have hvi : (v &&& fselMask (fselIndex p)).getLsbD i = v.getLsbD i := by rw [hv]
  simp only [BitVec.getLsbD_and] at hvi ⊢
  rw [updateField_getLsbD]
  split
  · rename_i h
    have : i < if fselIndex p = 5 then 24 else 30 := by omega
    simp only [fselMask_getLsbD, this, decide_true, Bool.and_true]
  · exact hvi

theorem fieldAt_updateField {v : Word} {s : Nat} (hs : s + 3 ≤ 32) (code : FnCode) :
    fieldAt (updateField v s code) s = code := by
  apply BitVec.eq_of_getLsbD_eq
  intro i hi
  simp only [fieldAt, BitVec.getLsbD_extractLsb', updateField_getLsbD]
  rw [if_pos (by omega)]
  have : s + i < 32 := by omega
  simp [hi, this]

/-- Two different pins have disjoint fields (R22, R97). -/
theorem fieldAt_updateField_ne {v : Word} {s s' : Nat} (h : s + 3 ≤ s' ∨ s' + 3 ≤ s) (code : FnCode) :
    fieldAt (updateField v s code) s' = fieldAt v s' := by
  apply BitVec.eq_of_getLsbD_eq
  intro i hi
  simp only [fieldAt, BitVec.getLsbD_extractLsb', updateField_getLsbD]
  rw [if_neg (by omega)]

/-- Updating a field with the code it holds changes nothing (R69, R121 corner case a). -/
theorem updateField_same (v : Word) (s : Nat) : updateField v s (fieldAt v s) = v := by
  apply BitVec.eq_of_getLsbD_eq
  intro i hi
  rw [updateField_getLsbD]
  split
  · have h1 : i - s < 3 := by omega
    have h2 : s + (i - s) = i := by omega
    simp [fieldAt, h1, h2, hi]
  · rfl

/-- The write of `SET_FUNCTION(p, f)` after its read (R121). -/
theorem blockEvent_function {c : Config} (h : c.Admissible) (b : Block) {p : Nat} (hp : p < 58) (f : PinFunction) :
    blockEvent c b (.busWrite (fselWord p)
      (updateField (b.fselWord (fselIndex p)) (fselShift p) (fnCode c f))) = b.withFunction c p f := by
  have hw : fselIndex p < 6 := by simp only [fselIndex]; omega
  simp only [blockEvent, fselWord, regOf_fsel h hw, Block.write, Block.withFunction]
  rw [updateField_masked hp (fselWord_masked b _)]
  congr 1
  apply Vector.ext
  intro i hi
  simp only [Vector.getElem_set, Vector.getElem_setIfInBounds]

@[simp] theorem withFunction_olat (c : Config) (b : Block) (p : Nat) (f : PinFunction) :
    (b.withFunction c p f).olat = b.olat := rfl

@[simp] theorem withFunction_latch (c : Config) (b : Block) (p q : Nat) (f : PinFunction) :
    (b.withFunction c p f).latch q = b.latch q := rfl

theorem withFunction_fselWord (c : Config) (b : Block) {p : Nat} (hp : p < 58) (f : PinFunction) (n : Nat) :
    (b.withFunction c p f).fselWord n = if n = fselIndex p then
      updateField (b.fselWord n) (fselShift p) (fnCode c f) else b.fselWord n := by
  have hw : fselIndex p < 6 := by simp only [fselIndex]; omega
  by_cases hn : n < 6
  · by_cases h : n = fselIndex p
    · subst h
      rw [if_pos rfl]
      have hm := updateField_masked hp (fselWord_masked b (fselIndex p)) (fnCode c f)
      simp only [Block.fselWord, hn, dif_pos] at hm ⊢
      simp only [Block.withFunction, Vector.getElem_setIfInBounds_self, Block.fselWord, hn, dif_pos]
      exact hm
    · simp only [Block.fselWord, hn, dif_pos, Block.withFunction, if_neg h]
      rw [Vector.getElem_setIfInBounds_ne hn (fun e => h e.symm)]
  · simp only [Block.fselWord, hn, dif_neg, not_false_iff]
    rw [if_neg (by omega)]

/-- `SET_FUNCTION(p, f)` gives `p` the code of `f` and leaves every other pin's field (R122). -/
theorem withFunction_field (c : Config) (b : Block) {p : Nat} (hp : p < 58) (q : Nat) (f : PinFunction) :
    (b.withFunction c p f).field q = if q = p then fnCode c f else b.field q := by
  simp only [Block.field, withFunction_fselWord c b hp]
  by_cases h : q = p
  · subst h
    rw [if_pos rfl, if_pos rfl]
    exact fieldAt_updateField (by simp only [fselShift]; omega) _
  · rw [if_neg h]
    by_cases hi : fselIndex q = fselIndex p
    · rw [if_pos hi]
      apply fieldAt_updateField_ne
      simp only [fselShift, fselIndex] at hi ⊢
      omega
    · rw [if_neg hi]

/-! ### The one form of the Register Block -/

theorem wf_iff (b : Block) : b.wf = true ↔ ∀ n : Fin 6, b.fsel[n] &&& ~~~(fselMask n) = 0 := by
  simp [Block.wf]

/-- In a block in its one form a read of GPFSELn returns the stored word (R22, R23). -/
theorem fselWord_wf {b : Block} (hw : b.wf = true) {n : Nat} (hn : n < 6) : b.fselWord n = b.fsel[n] := by
  have := (wf_iff b).mp hw ⟨n, hn⟩
  simp only [Block.fselWord, hn, dif_pos]
  apply BitVec.eq_of_getLsbD_eq
  intro i hi
  have h2 := congrArg (fun v => v.getLsbD i) this
  simp only [BitVec.getLsbD_and, BitVec.getLsbD_not, hi, decide_true, Bool.true_and, Fin.getElem_fin] at h2 ⊢
  cases h3 : (b.fsel[n]).getLsbD i <;> cases h4 : (fselMask n).getLsbD i <;> simp_all

/-- Every write keeps the reserved bits zero (R23). -/
theorem write_wf {b : Block} (h : b.wf = true) (r : Reg) (v : Word) : (b.write r v).wf = true := by
  rw [wf_iff] at h ⊢
  intro n
  cases r with
  | fsel m =>
    simp only [Block.write, Fin.getElem_fin, Vector.getElem_set]
    split
    · rename_i e
      have : m = n := Fin.ext e
      subst this
      apply BitVec.eq_of_getLsbD_eq
      intro i hi
      simp only [BitVec.getLsbD_and, BitVec.getLsbD_not, hi, decide_true, Bool.true_and]
      cases (fselMask m.val).getLsbD i <;> simp
    · exact h n
  | set m => exact h n
  | clr m => exact h n
  | lev m => exact h n

theorem blockEvent_wf {c : Config} {b : Block} (h : b.wf = true) (e : BusEvent) : (blockEvent c b e).wf = true := by
  cases e with
  | busWrite w v =>
    simp only [blockEvent]
    split
    · exact write_wf h _ _
    · exact h
  | _ => exact h

theorem blockAfter_wf {c : Config} {b : Block} (h : b.wf = true) (es : List BusEvent) :
    (blockAfter c b es).wf = true := by
  induction es generalizing b with
  | nil => exact h
  | cons e es ih => exact ih (blockEvent_wf h e)

theorem zero_wf : Block.zero.wf = true := by decide

/-! ### Replaying traces -/

@[simp] theorem blockAfter_nil (c : Config) (b : Block) : blockAfter c b [] = b := rfl

@[simp] theorem blockAfter_cons (c : Config) (b : Block) (e : BusEvent) (es : List BusEvent) :
    blockAfter c b (e :: es) = blockAfter c (blockEvent c b e) es := rfl

theorem blockAfter_append (c : Config) (b : Block) (es fs : List BusEvent) :
    blockAfter c b (es ++ fs) = blockAfter c (blockAfter c b es) fs := by
  simp [blockAfter, List.foldl_append]

theorem padsAfter_append (c : Config) (b : Block) (es fs : List BusEvent) :
    padsAfter c b (es ++ fs) = padsAfter c b es ++ padsAfter c (blockAfter c b es) fs := by
  induction es generalizing b with
  | nil => rfl
  | cons e es ih =>
    cases e with
    | busWrite w v => simp [padsAfter, ih, List.append_assoc]
    | _ => simp [padsAfter, ih, blockEvent]

theorem delayUnits_append (es fs : List BusEvent) : delayUnits (es ++ fs) = delayUnits es + delayUnits fs := by
  induction es with
  | nil => simp [delayUnits]
  | cons e es ih =>
    cases e with
    | delay n => simp [delayUnits, ih, Nat.add_assoc]
    | _ => simp [delayUnits, ih]

theorem traceLife_append (l : Life) (es fs : List BusEvent) :
    traceLife l (es ++ fs) = (traceLife l es).bind fun k => traceLife k fs := by
  induction es generalizing l with
  | nil => rfl
  | cons e es ih =>
    simp only [List.cons_append, traceLife]
    cases lifeAfter l e with
    | none => rfl
    | some k => exact ih k

end Sys2Proof.Machine
end

