-- ==== Sys2Proof/Laws/State.lean ====
section
/-! SUPPORT. One lemma per field per update of the state, each true by rfl, so that no proof unfolds a record update. -/

namespace Sys2Proof.Machine

@[simp] theorem respond_cfg (r : Option Response) (s : State) :
    (respond r s).cfg = s.cfg := rfl
@[simp] theorem respond_env (r : Option Response) (s : State) :
    (respond r s).env = s.env := rfl
@[simp] theorem respond_block (r : Option Response) (s : State) :
    (respond r s).block = s.block := rfl
@[simp] theorem respond_life (r : Option Response) (s : State) :
    (respond r s).life = s.life := rfl
@[simp] theorem respond_fatalCause (r : Option Response) (s : State) :
    (respond r s).fatalCause = s.fatalCause := rfl
@[simp] theorem respond_mapped (r : Option Response) (s : State) :
    (respond r s).mapped = s.mapped := rfl
@[simp] theorem respond_seq (r : Option Response) (s : State) :
    (respond r s).seq = s.seq := rfl
@[simp] theorem respond_elapsedUnits (r : Option Response) (s : State) :
    (respond r s).elapsedUnits = s.elapsedUnits := rfl
@[simp] theorem respond_busTrace (r : Option Response) (s : State) :
    (respond r s).busTrace = s.busTrace := rfl
@[simp] theorem respond_primTrace (r : Option Response) (s : State) :
    (respond r s).primTrace = s.primTrace := rfl
@[simp] theorem respond_padTrace (r : Option Response) (s : State) :
    (respond r s).padTrace = s.padTrace := rfl
@[simp] theorem respond_cmds (r : Option Response) (s : State) :
    (respond r s).cmds = s.cmds := rfl
@[simp] theorem respond_response (r : Option Response) (s : State) :
    (respond r s).response = r := rfl
@[simp] theorem respond_refusedMark (r : Option Response) (s : State) :
    (respond r s).refusedMark = s.refusedMark := rfl
@[simp] theorem respond_draws (r : Option Response) (s : State) :
    (respond r s).draws = s.draws := rfl

@[simp] theorem refuse_cfg (why : RefuseReason) (s : State) :
    (refuse why s).cfg = s.cfg := rfl
@[simp] theorem refuse_env (why : RefuseReason) (s : State) :
    (refuse why s).env = s.env := rfl
@[simp] theorem refuse_block (why : RefuseReason) (s : State) :
    (refuse why s).block = s.block := rfl
@[simp] theorem refuse_life (why : RefuseReason) (s : State) :
    (refuse why s).life = s.life := rfl
@[simp] theorem refuse_fatalCause (why : RefuseReason) (s : State) :
    (refuse why s).fatalCause = s.fatalCause := rfl
@[simp] theorem refuse_mapped (why : RefuseReason) (s : State) :
    (refuse why s).mapped = s.mapped := rfl
@[simp] theorem refuse_seq (why : RefuseReason) (s : State) :
    (refuse why s).seq = s.seq := rfl
@[simp] theorem refuse_elapsedUnits (why : RefuseReason) (s : State) :
    (refuse why s).elapsedUnits = s.elapsedUnits := rfl
@[simp] theorem refuse_busTrace (why : RefuseReason) (s : State) :
    (refuse why s).busTrace = s.busTrace := rfl
@[simp] theorem refuse_primTrace (why : RefuseReason) (s : State) :
    (refuse why s).primTrace = s.primTrace := rfl
@[simp] theorem refuse_padTrace (why : RefuseReason) (s : State) :
    (refuse why s).padTrace = s.padTrace := rfl
@[simp] theorem refuse_cmds (why : RefuseReason) (s : State) :
    (refuse why s).cmds = s.cmds := rfl
@[simp] theorem refuse_response (why : RefuseReason) (s : State) :
    (refuse why s).response = some (.refused why) := rfl
@[simp] theorem refuse_refusedMark (why : RefuseReason) (s : State) :
    (refuse why s).refusedMark = true := rfl
@[simp] theorem refuse_draws (why : RefuseReason) (s : State) :
    (refuse why s).draws = s.draws := rfl

@[simp] theorem delay_cfg (n : Nat) (s : State) :
    (delay n s).cfg = s.cfg := rfl
@[simp] theorem delay_env (n : Nat) (s : State) :
    (delay n s).env = s.env := rfl
@[simp] theorem delay_block (n : Nat) (s : State) :
    (delay n s).block = s.block := rfl
@[simp] theorem delay_life (n : Nat) (s : State) :
    (delay n s).life = s.life := rfl
@[simp] theorem delay_fatalCause (n : Nat) (s : State) :
    (delay n s).fatalCause = s.fatalCause := rfl
@[simp] theorem delay_mapped (n : Nat) (s : State) :
    (delay n s).mapped = s.mapped := rfl
@[simp] theorem delay_seq (n : Nat) (s : State) :
    (delay n s).seq = s.seq := rfl
@[simp] theorem delay_elapsedUnits (n : Nat) (s : State) :
    (delay n s).elapsedUnits = s.elapsedUnits + n := rfl
@[simp] theorem delay_busTrace (n : Nat) (s : State) :
    (delay n s).busTrace = s.busTrace ++ [.delay n] := rfl
@[simp] theorem delay_primTrace (n : Nat) (s : State) :
    (delay n s).primTrace = s.primTrace ++ [.delay n] := rfl
@[simp] theorem delay_padTrace (n : Nat) (s : State) :
    (delay n s).padTrace = s.padTrace ++ [.delay n] := rfl
@[simp] theorem delay_cmds (n : Nat) (s : State) :
    (delay n s).cmds = s.cmds := rfl
@[simp] theorem delay_response (n : Nat) (s : State) :
    (delay n s).response = s.response := rfl
@[simp] theorem delay_refusedMark (n : Nat) (s : State) :
    (delay n s).refusedMark = s.refusedMark := rfl
@[simp] theorem delay_draws (n : Nat) (s : State) :
    (delay n s).draws = s.draws := rfl

@[simp] theorem mapBlock_cfg (s : State) :
    (mapBlock s).cfg = s.cfg := rfl
@[simp] theorem mapBlock_env (s : State) :
    (mapBlock s).env = s.env := rfl
@[simp] theorem mapBlock_block (s : State) :
    (mapBlock s).block = s.block := rfl
@[simp] theorem mapBlock_life (s : State) :
    (mapBlock s).life = .opened := rfl
@[simp] theorem mapBlock_fatalCause (s : State) :
    (mapBlock s).fatalCause = s.fatalCause := rfl
@[simp] theorem mapBlock_mapped (s : State) :
    (mapBlock s).mapped = true := rfl
@[simp] theorem mapBlock_seq (s : State) :
    (mapBlock s).seq = s.seq := rfl
@[simp] theorem mapBlock_elapsedUnits (s : State) :
    (mapBlock s).elapsedUnits = s.elapsedUnits := rfl
@[simp] theorem mapBlock_busTrace (s : State) :
    (mapBlock s).busTrace = s.busTrace ++ [.map] := rfl
@[simp] theorem mapBlock_primTrace (s : State) :
    (mapBlock s).primTrace = s.primTrace := rfl
@[simp] theorem mapBlock_padTrace (s : State) :
    (mapBlock s).padTrace = s.padTrace := rfl
@[simp] theorem mapBlock_cmds (s : State) :
    (mapBlock s).cmds = s.cmds := rfl
@[simp] theorem mapBlock_response (s : State) :
    (mapBlock s).response = some .ok := rfl
@[simp] theorem mapBlock_refusedMark (s : State) :
    (mapBlock s).refusedMark = s.refusedMark := rfl
@[simp] theorem mapBlock_draws (s : State) :
    (mapBlock s).draws = s.draws := rfl

@[simp] theorem unmapBlock_cfg (s : State) :
    (unmapBlock s).cfg = s.cfg := rfl
@[simp] theorem unmapBlock_env (s : State) :
    (unmapBlock s).env = s.env := rfl
@[simp] theorem unmapBlock_block (s : State) :
    (unmapBlock s).block = s.block := rfl
@[simp] theorem unmapBlock_life (s : State) :
    (unmapBlock s).life = .closed := rfl
@[simp] theorem unmapBlock_fatalCause (s : State) :
    (unmapBlock s).fatalCause = s.fatalCause := rfl
@[simp] theorem unmapBlock_mapped (s : State) :
    (unmapBlock s).mapped = false := rfl
@[simp] theorem unmapBlock_seq (s : State) :
    (unmapBlock s).seq = s.seq := rfl
@[simp] theorem unmapBlock_elapsedUnits (s : State) :
    (unmapBlock s).elapsedUnits = s.elapsedUnits := rfl
@[simp] theorem unmapBlock_busTrace (s : State) :
    (unmapBlock s).busTrace = s.busTrace ++ [.unmap] := rfl
@[simp] theorem unmapBlock_primTrace (s : State) :
    (unmapBlock s).primTrace = s.primTrace := rfl
@[simp] theorem unmapBlock_padTrace (s : State) :
    (unmapBlock s).padTrace = s.padTrace := rfl
@[simp] theorem unmapBlock_cmds (s : State) :
    (unmapBlock s).cmds = s.cmds := rfl
@[simp] theorem unmapBlock_response (s : State) :
    (unmapBlock s).response = s.response := rfl
@[simp] theorem unmapBlock_refusedMark (s : State) :
    (unmapBlock s).refusedMark = s.refusedMark := rfl
@[simp] theorem unmapBlock_draws (s : State) :
    (unmapBlock s).draws = s.draws := rfl

@[simp] theorem raiseFatal_cfg (cause : FatalCause) (s : State) :
    (raiseFatal cause s).cfg = s.cfg := rfl
@[simp] theorem raiseFatal_env (cause : FatalCause) (s : State) :
    (raiseFatal cause s).env = s.env := rfl
@[simp] theorem raiseFatal_block (cause : FatalCause) (s : State) :
    (raiseFatal cause s).block = s.block := rfl
@[simp] theorem raiseFatal_life (cause : FatalCause) (s : State) :
    (raiseFatal cause s).life = .aborted := rfl
@[simp] theorem raiseFatal_fatalCause (cause : FatalCause) (s : State) :
    (raiseFatal cause s).fatalCause = some cause := rfl
@[simp] theorem raiseFatal_mapped (cause : FatalCause) (s : State) :
    (raiseFatal cause s).mapped = s.mapped := rfl
@[simp] theorem raiseFatal_seq (cause : FatalCause) (s : State) :
    (raiseFatal cause s).seq = s.seq := rfl
@[simp] theorem raiseFatal_elapsedUnits (cause : FatalCause) (s : State) :
    (raiseFatal cause s).elapsedUnits = s.elapsedUnits := rfl
@[simp] theorem raiseFatal_busTrace (cause : FatalCause) (s : State) :
    (raiseFatal cause s).busTrace = s.busTrace ++ [.fatal cause] := rfl
@[simp] theorem raiseFatal_primTrace (cause : FatalCause) (s : State) :
    (raiseFatal cause s).primTrace = s.primTrace := rfl
@[simp] theorem raiseFatal_padTrace (cause : FatalCause) (s : State) :
    (raiseFatal cause s).padTrace = s.padTrace := rfl
@[simp] theorem raiseFatal_cmds (cause : FatalCause) (s : State) :
    (raiseFatal cause s).cmds = s.cmds := rfl
@[simp] theorem raiseFatal_response (cause : FatalCause) (s : State) :
    (raiseFatal cause s).response = some (.fatal cause) := rfl
@[simp] theorem raiseFatal_refusedMark (cause : FatalCause) (s : State) :
    (raiseFatal cause s).refusedMark = s.refusedMark := rfl
@[simp] theorem raiseFatal_draws (cause : FatalCause) (s : State) :
    (raiseFatal cause s).draws = s.draws := rfl

@[simp] theorem setBitIndex_cfg (i : Option Nat) (s : State) :
    (setBitIndex i s).cfg = s.cfg := rfl
@[simp] theorem setBitIndex_env (i : Option Nat) (s : State) :
    (setBitIndex i s).env = s.env := rfl
@[simp] theorem setBitIndex_block (i : Option Nat) (s : State) :
    (setBitIndex i s).block = s.block := rfl
@[simp] theorem setBitIndex_life (i : Option Nat) (s : State) :
    (setBitIndex i s).life = s.life := rfl
@[simp] theorem setBitIndex_fatalCause (i : Option Nat) (s : State) :
    (setBitIndex i s).fatalCause = s.fatalCause := rfl
@[simp] theorem setBitIndex_mapped (i : Option Nat) (s : State) :
    (setBitIndex i s).mapped = s.mapped := rfl
@[simp] theorem setBitIndex_seq (i : Option Nat) (s : State) :
    (setBitIndex i s).seq = { s.seq with bitIndex := i } := rfl
@[simp] theorem setBitIndex_elapsedUnits (i : Option Nat) (s : State) :
    (setBitIndex i s).elapsedUnits = s.elapsedUnits := rfl
@[simp] theorem setBitIndex_busTrace (i : Option Nat) (s : State) :
    (setBitIndex i s).busTrace = s.busTrace := rfl
@[simp] theorem setBitIndex_primTrace (i : Option Nat) (s : State) :
    (setBitIndex i s).primTrace = s.primTrace := rfl
@[simp] theorem setBitIndex_padTrace (i : Option Nat) (s : State) :
    (setBitIndex i s).padTrace = s.padTrace := rfl
@[simp] theorem setBitIndex_cmds (i : Option Nat) (s : State) :
    (setBitIndex i s).cmds = s.cmds := rfl
@[simp] theorem setBitIndex_response (i : Option Nat) (s : State) :
    (setBitIndex i s).response = s.response := rfl
@[simp] theorem setBitIndex_refusedMark (i : Option Nat) (s : State) :
    (setBitIndex i s).refusedMark = s.refusedMark := rfl
@[simp] theorem setBitIndex_draws (i : Option Nat) (s : State) :
    (setBitIndex i s).draws = s.draws := rfl

@[simp] theorem advance_cfg (s : State) :
    (advance s).cfg = s.cfg := rfl
@[simp] theorem advance_env (s : State) :
    (advance s).env = s.env := rfl
@[simp] theorem advance_block (s : State) :
    (advance s).block = s.block := rfl
@[simp] theorem advance_life (s : State) :
    (advance s).life = s.life := rfl
@[simp] theorem advance_fatalCause (s : State) :
    (advance s).fatalCause = s.fatalCause := rfl
@[simp] theorem advance_mapped (s : State) :
    (advance s).mapped = s.mapped := rfl
@[simp] theorem advance_seq (s : State) :
    (advance s).seq = { s.seq with upc := s.seq.upc + 1 } := rfl
@[simp] theorem advance_elapsedUnits (s : State) :
    (advance s).elapsedUnits = s.elapsedUnits := rfl
@[simp] theorem advance_busTrace (s : State) :
    (advance s).busTrace = s.busTrace := rfl
@[simp] theorem advance_primTrace (s : State) :
    (advance s).primTrace = s.primTrace := rfl
@[simp] theorem advance_padTrace (s : State) :
    (advance s).padTrace = s.padTrace := rfl
@[simp] theorem advance_cmds (s : State) :
    (advance s).cmds = s.cmds := rfl
@[simp] theorem advance_response (s : State) :
    (advance s).response = s.response := rfl
@[simp] theorem advance_refusedMark (s : State) :
    (advance s).refusedMark = s.refusedMark := rfl
@[simp] theorem advance_draws (s : State) :
    (advance s).draws = s.draws := rfl

@[simp] theorem accept_cfg (i : Instr) (s : State) :
    (accept i s).cfg = s.cfg := rfl
@[simp] theorem accept_env (i : Instr) (s : State) :
    (accept i s).env = s.env := rfl
@[simp] theorem accept_block (i : Instr) (s : State) :
    (accept i s).block = s.block := rfl
@[simp] theorem accept_life (i : Instr) (s : State) :
    (accept i s).life = s.life := rfl
@[simp] theorem accept_fatalCause (i : Instr) (s : State) :
    (accept i s).fatalCause = s.fatalCause := rfl
@[simp] theorem accept_mapped (i : Instr) (s : State) :
    (accept i s).mapped = s.mapped := rfl
@[simp] theorem accept_seq (i : Instr) (s : State) :
    (accept i s).seq = ⟨some i, 0, i.pin?, i.byte?, none, none⟩ := rfl
@[simp] theorem accept_elapsedUnits (i : Instr) (s : State) :
    (accept i s).elapsedUnits = s.elapsedUnits := rfl
@[simp] theorem accept_busTrace (i : Instr) (s : State) :
    (accept i s).busTrace = s.busTrace := rfl
@[simp] theorem accept_primTrace (i : Instr) (s : State) :
    (accept i s).primTrace = s.primTrace := rfl
@[simp] theorem accept_padTrace (i : Instr) (s : State) :
    (accept i s).padTrace = s.padTrace := rfl
@[simp] theorem accept_cmds (i : Instr) (s : State) :
    (accept i s).cmds = s.cmds := rfl
@[simp] theorem accept_response (i : Instr) (s : State) :
    (accept i s).response = none := rfl
@[simp] theorem accept_refusedMark (i : Instr) (s : State) :
    (accept i s).refusedMark = s.refusedMark := rfl
@[simp] theorem accept_draws (i : Instr) (s : State) :
    (accept i s).draws = s.draws := rfl

@[simp] theorem finish_cfg (s : State) :
    (finish s).cfg = s.cfg := rfl
@[simp] theorem finish_env (s : State) :
    (finish s).env = s.env := rfl
@[simp] theorem finish_block (s : State) :
    (finish s).block = s.block := rfl
@[simp] theorem finish_life (s : State) :
    (finish s).life = s.life := rfl
@[simp] theorem finish_fatalCause (s : State) :
    (finish s).fatalCause = s.fatalCause := rfl
@[simp] theorem finish_mapped (s : State) :
    (finish s).mapped = s.mapped := rfl
@[simp] theorem finish_seq (s : State) :
    (finish s).seq = .idle := rfl
@[simp] theorem finish_elapsedUnits (s : State) :
    (finish s).elapsedUnits = s.elapsedUnits := rfl
@[simp] theorem finish_busTrace (s : State) :
    (finish s).busTrace = s.busTrace := rfl
@[simp] theorem finish_primTrace (s : State) :
    (finish s).primTrace = s.primTrace := rfl
@[simp] theorem finish_padTrace (s : State) :
    (finish s).padTrace = s.padTrace := rfl
@[simp] theorem finish_cmds (s : State) :
    (finish s).cmds = s.cmds := rfl
@[simp] theorem finish_response (s : State) :
    (finish s).response = s.response := rfl
@[simp] theorem finish_refusedMark (s : State) :
    (finish s).refusedMark = s.refusedMark := rfl
@[simp] theorem finish_draws (s : State) :
    (finish s).draws = s.draws := rfl

@[simp] theorem processStart_cfg (env : Env) (s : State) :
    (s.processStart env).cfg = s.cfg := rfl
@[simp] theorem processStart_env (env : Env) (s : State) :
    (s.processStart env).env = env := rfl
@[simp] theorem processStart_block (env : Env) (s : State) :
    (s.processStart env).block = s.block := rfl
@[simp] theorem processStart_life (env : Env) (s : State) :
    (s.processStart env).life = .unopened := rfl
@[simp] theorem processStart_fatalCause (env : Env) (s : State) :
    (s.processStart env).fatalCause = none := rfl
@[simp] theorem processStart_mapped (env : Env) (s : State) :
    (s.processStart env).mapped = false := rfl
@[simp] theorem processStart_seq (env : Env) (s : State) :
    (s.processStart env).seq = .idle := rfl
@[simp] theorem processStart_elapsedUnits (env : Env) (s : State) :
    (s.processStart env).elapsedUnits = 0 := rfl
@[simp] theorem processStart_busTrace (env : Env) (s : State) :
    (s.processStart env).busTrace = [] := rfl
@[simp] theorem processStart_primTrace (env : Env) (s : State) :
    (s.processStart env).primTrace = [] := rfl
@[simp] theorem processStart_padTrace (env : Env) (s : State) :
    (s.processStart env).padTrace = [] := rfl
@[simp] theorem processStart_cmds (env : Env) (s : State) :
    (s.processStart env).cmds = [] := rfl
@[simp] theorem processStart_response (env : Env) (s : State) :
    (s.processStart env).response = none := rfl
@[simp] theorem processStart_refusedMark (env : Env) (s : State) :
    (s.processStart env).refusedMark = false := rfl
@[simp] theorem processStart_draws (env : Env) (s : State) :
    (s.processStart env).draws = s.draws := rfl

end Sys2Proof.Machine
end

