-- ==== Sys2Proof/Laws/Ops.lean ====
section
/-! SUPPORT. What each shared operation of Machine/Ops.lean can do, said once: the answers of a register access under
an admissible configuration, and for every micro-operation what it may change when it answers a next state. -/

namespace Sys2Proof.Machine

/-! ### Sequencing of outcomes -/

@[simp] theorem andThen_next (s : State) (f : State → Host.Outcome State Fault Refusal) :
    andThen (.next s) f = f s := rfl

theorem andThen_assoc (r : Host.Outcome State Fault Refusal) (f g : State → Host.Outcome State Fault Refusal) :
    andThen (andThen r f) g = andThen r fun s => andThen (f s) g := by
  cases r <;> rfl

/-- If a sequence answers a next state, both parts did. -/
theorem andThen_eq_next {r : Host.Outcome State Fault Refusal} {f : State → Host.Outcome State Fault Refusal}
    {t : State} (h : andThen r f = .next t) : ∃ s, r = .next s ∧ f s = .next t := by
  cases r with
  | next s => exact ⟨s, rfl, h⟩
  | fault e => cases h
  | refused e => cases h

@[simp] theorem performAll_nil (s : State) : performAll [] s = .next s := rfl

@[simp] theorem performAll_cons (m : Micro) (ms : List Micro) (s : State) :
    performAll (m :: ms) s = andThen (perform m s) (performAll ms) := rfl

theorem performAll_append (ms ns : List Micro) (s : State) :
    performAll (ms ++ ns) s = andThen (performAll ms s) (performAll ns) := by
  induction ms generalizing s with
  | nil => rfl
  | cons m ms ih =>
    simp only [List.cons_append, performAll_cons, andThen_assoc]
    congr 1
    funext t
    exact ih t

/-! ### Register accesses -/

/-- A read of a listed word while the block is mapped (R62). -/
theorem regRead_listed {s : State} {w : Nat} {r : Reg} (hm : s.mapped = true) (hr : regOf s.cfg w = some r) :
    regRead w s = .next { s with
      seq := { s.seq with tmp := some (s.block.read s.cfg s.draws r) }
      busTrace := s.busTrace ++ [.busRead w (s.block.read s.cfg s.draws r)]
      draws := if r.drawn then s.draws + 1 else s.draws } := by
  simp [regRead, hm, hr]

/-- A write of a listed word while the block is mapped (R63), in terms of its bus event. -/
theorem regWrite_listed {s : State} {w : Nat} {r : Reg} (v : Word) (hm : s.mapped = true)
    (hr : regOf s.cfg w = some r) :
    regWrite w v s = .next { s with
      block := blockEvent s.cfg s.block (.busWrite w v)
      busTrace := s.busTrace ++ [.busWrite w v]
      padTrace := s.padTrace ++ padsAfter s.cfg s.block [.busWrite w v] } := by
  simp [regWrite, hm, hr, blockEvent, padsAfter]

/-- What a register read can do. -/
theorem regRead_next {s t : State} {w : Nat} (h : regRead w s = .next t) :
    s.mapped = true ∧ ∃ r, regOf s.cfg w = some r ∧ t = { s with
      seq := { s.seq with tmp := some (s.block.read s.cfg s.draws r) }
      busTrace := s.busTrace ++ [.busRead w (s.block.read s.cfg s.draws r)]
      draws := if r.drawn then s.draws + 1 else s.draws } := by
  by_cases hm : s.mapped = true
  · cases hr : regOf s.cfg w with
    | none => simp [regRead, hm, hr] at h
    | some r => exact ⟨hm, r, rfl, by rw [regRead_listed hm hr] at h; cases h; rfl⟩
  · simp [regRead, hm] at h

/-- What a register write can do. -/
theorem regWrite_next {s t : State} {w : Nat} {v : Word} (h : regWrite w v s = .next t) :
    s.mapped = true ∧ t = { s with
      block := blockEvent s.cfg s.block (.busWrite w v)
      busTrace := s.busTrace ++ [.busWrite w v]
      padTrace := s.padTrace ++ padsAfter s.cfg s.block [.busWrite w v] } := by
  by_cases hm : s.mapped = true
  · cases hr : regOf s.cfg w with
    | none => simp [regWrite, hm, hr] at h
    | some r => exact ⟨hm, by rw [regWrite_listed v hm hr] at h; cases h; rfl⟩
  · simp [regWrite, hm] at h

/-! ### What micro-operations can do -/

/-- What performing micro-operations may do to the state: the arguments, the host's stream, the mark and the command
in progress stay; the bus trace grows by some events, and the Register Block, the pads and the delay count are what
those events make them (R63, R170). -/
structure Moves (s t : State) : Prop where
  cfg : t.cfg = s.cfg
  env : t.env = s.env
  cmds : t.cmds = s.cmds
  mark : t.refusedMark = s.refusedMark
  events : ∃ es, t.busTrace = s.busTrace ++ es ∧ t.block = blockAfter s.cfg s.block es ∧
    t.padTrace = s.padTrace ++ padsAfter s.cfg s.block es ∧ t.elapsedUnits = s.elapsedUnits + delayUnits es

theorem Moves.refl (s : State) : Moves s s := ⟨rfl, rfl, rfl, rfl, [], by simp [padsAfter, delayUnits]⟩

theorem Moves.trans {s t u : State} (h : Moves s t) (k : Moves t u) : Moves s u := by
  obtain ⟨es, h1, h2, h3, h4⟩ := h.events
  obtain ⟨fs, k1, k2, k3, k4⟩ := k.events
  refine ⟨k.cfg.trans h.cfg, k.env.trans h.env, k.cmds.trans h.cmds, k.mark.trans h.mark, es ++ fs, ?_, ?_, ?_, ?_⟩
  · rw [k1, h1, List.append_assoc]
  · rw [k2, h2, h.cfg, blockAfter_append]
  · rw [k3, h3, h2, h.cfg, padsAfter_append, List.append_assoc]
  · rw [k4, h4, delayUnits_append, Nat.add_assoc]

theorem regRead_moves {s t : State} {w : Nat} (h : regRead w s = .next t) : Moves s t := by
  obtain ⟨-, r, -, rfl⟩ := regRead_next h
  exact ⟨rfl, rfl, rfl, rfl, [.busRead w _], rfl, rfl, by simp [padsAfter], by simp [delayUnits]⟩

theorem regWrite_moves {s t : State} {w : Nat} {v : Word} (h : regWrite w v s = .next t) : Moves s t := by
  obtain ⟨-, rfl⟩ := regWrite_next h
  exact ⟨rfl, rfl, rfl, rfl, [.busWrite w v], rfl, rfl, rfl, by simp [delayUnits]⟩

theorem doOp_moves {op : MicroOp} {s t : State} (h : doOp op s = .next t) : Moves s t := by
  cases op with
  | regRead w => exact regRead_moves h
  | regWrite w v =>
    cases v with
    | word v => exact regWrite_moves h
    | field sh code =>
      simp only [doOp] at h
      split at h
      · exact regWrite_moves h
      · cases h
  | delay n =>
    cases h
    exact ⟨rfl, rfl, rfl, rfl, [.delay n], rfl, rfl, by simp [padsAfter], by simp [delayUnits]⟩
  | map => cases h; exact ⟨rfl, rfl, rfl, rfl, [.map], rfl, rfl, by simp [padsAfter], by simp [delayUnits]⟩
  | unmap => cases h; exact ⟨rfl, rfl, rfl, rfl, [.unmap], rfl, rfl, by simp [padsAfter], by simp [delayUnits]⟩
  | abort c =>
    cases h
    exact ⟨rfl, rfl, rfl, rfl, [.fatal c], rfl, rfl, by simp [padsAfter], by simp [delayUnits]⟩

/-- Completing a primitive touches the primitive trace and the response only. -/
theorem complete_next {c : Option Completes} {s t : State} (h : complete c s = .next t) :
    ∃ ps r, t = { s with primTrace := s.primTrace ++ ps, response := r } := by
  cases c with
  | none =>
    obtain rfl : s = t := by simpa [complete] using h
    exact ⟨[], s.response, by simp⟩
  | some c =>
    cases c with
    | setFunction p f => cases h; exact ⟨[.setFunction p f], s.response, rfl⟩
    | setLevel p l => cases h; exact ⟨[.setLevel p l], s.response, rfl⟩
    | getLevel p =>
      simp only [complete] at h
      split at h
      · cases h; exact ⟨_, _, rfl⟩
      · cases h

theorem perform_moves {m : Micro} {s t : State} (h : perform m s = .next t) : Moves s t := by
  obtain ⟨u, hu, h⟩ := andThen_eq_next h
  obtain ⟨v, hv, h⟩ := andThen_eq_next h
  obtain ⟨ps, r, rfl⟩ := complete_next hv
  cases h
  have hm := doOp_moves hu
  exact ⟨hm.cfg, hm.env, hm.cmds, hm.mark, hm.events⟩

theorem performAll_moves {ms : List Micro} {s t : State} (h : performAll ms s = .next t) : Moves s t := by
  induction ms generalizing s with
  | nil => cases h; exact Moves.refl _
  | cons m ms ih =>
    obtain ⟨u, hu, h⟩ := andThen_eq_next h
    exact (perform_moves hu).trans (ih h)

theorem runToEnd_moves {ms : List Micro} {s t : State} (h : runToEnd ms s = .next t) :
    Moves s t ∧ t.seq = .idle := by
  obtain ⟨u, hu, h⟩ := andThen_eq_next h
  cases h
  have hm := performAll_moves hu
  exact ⟨⟨hm.cfg, hm.env, hm.cmds, hm.mark, hm.events⟩, rfl⟩

/-- The micro-step index counts the micro-operations performed, and the command in progress stays (R41). -/
theorem perform_upc {m : Micro} {s t : State} (h : perform m s = .next t) :
    t.seq.upc = s.seq.upc + 1 ∧ t.seq.cur = s.seq.cur := by
  obtain ⟨u, hu, h⟩ := andThen_eq_next h
  obtain ⟨v, hv, h⟩ := andThen_eq_next h
  obtain ⟨ps, r, rfl⟩ := complete_next hv
  cases h
  have key : u.seq.upc = s.seq.upc ∧ u.seq.cur = s.seq.cur := by
    generalize ho : m.op = op at hu
    cases op with
    | regRead w => obtain ⟨-, r, -, rfl⟩ := regRead_next hu; exact ⟨rfl, rfl⟩
    | regWrite w v =>
      cases v with
      | word v => obtain ⟨-, rfl⟩ := regWrite_next hu; exact ⟨rfl, rfl⟩
      | field sh code =>
        simp only [doOp] at hu
        split at hu
        · obtain ⟨-, rfl⟩ := regWrite_next hu; exact ⟨rfl, rfl⟩
        · cases hu
    | delay n => cases hu; exact ⟨rfl, rfl⟩
    | map => cases hu; exact ⟨rfl, rfl⟩
    | unmap => cases hu; exact ⟨rfl, rfl⟩
    | abort c => cases hu; exact ⟨rfl, rfl⟩
  exact ⟨by simp [key.1], by simp [key.2]⟩

theorem performAll_upc {ms : List Micro} {s t : State} (h : performAll ms s = .next t) :
    t.seq.upc = s.seq.upc + ms.length ∧ t.seq.cur = s.seq.cur := by
  induction ms generalizing s with
  | nil => cases h; exact ⟨rfl, rfl⟩
  | cons m ms ih =>
    obtain ⟨u, hu, h⟩ := andThen_eq_next h
    have h1 := perform_upc hu
    have h2 := ih h
    exact ⟨by rw [h2.1, h1.1, List.length_cons]; omega, h2.2.trans h1.2⟩

/-! ### The micro-operations of an open interface -/

/-- A register access or a delay: every micro-operation but `Map`, `Unmap` and `Abort` (R110). -/
def MicroOp.isAccess : MicroOp → Bool
  | .regRead _ => true
  | .regWrite _ _ => true
  | .delay _ => true
  | .map => false
  | .unmap => false
  | .abort _ => false

/-- An access or a delay leaves the lifecycle and the response, and appends one event of the same kind. -/
theorem doOp_access {op : MicroOp} (ho : op.isAccess = true) {s t : State} (h : doOp op s = .next t) :
    t.life = s.life ∧ t.mapped = s.mapped ∧ t.fatalCause = s.fatalCause ∧ t.response = s.response ∧
    ∃ e, t.busTrace = s.busTrace ++ [e] ∧ lifeAfter .opened e = some .opened := by
  cases op with
  | regRead w => obtain ⟨-, r, -, rfl⟩ := regRead_next h; exact ⟨rfl, rfl, rfl, rfl, _, rfl, rfl⟩
  | regWrite w v =>
    cases v with
    | word v => obtain ⟨-, rfl⟩ := regWrite_next h; exact ⟨rfl, rfl, rfl, rfl, _, rfl, rfl⟩
    | field sh c =>
      simp only [doOp] at h
      split at h
      · obtain ⟨-, rfl⟩ := regWrite_next h; exact ⟨rfl, rfl, rfl, rfl, _, rfl, rfl⟩
      · cases h
  | delay n => cases h; exact ⟨rfl, rfl, rfl, rfl, _, rfl, rfl⟩
  | map => cases ho
  | unmap => cases ho
  | abort c => cases ho

/-- Accesses and delays of an open interface keep it open, and its bus trace shows it (R35, R61). -/
theorem performAll_access {ms : List Micro} (ho : ∀ m ∈ ms, m.op.isAccess = true) {s t : State} {l : Life}
    (hs : traceLife l s.busTrace = some .opened) (h : performAll ms s = .next t) :
    t.life = s.life ∧ t.mapped = s.mapped ∧ t.fatalCause = s.fatalCause ∧ traceLife l t.busTrace = some .opened := by
  induction ms generalizing s with
  | nil => cases h; exact ⟨rfl, rfl, rfl, hs⟩
  | cons m ms ih =>
    obtain ⟨u, hu, h⟩ := andThen_eq_next h
    obtain ⟨v, hv, hu⟩ := andThen_eq_next hu
    obtain ⟨w, hw, hu⟩ := andThen_eq_next hu
    obtain ⟨ps, r, rfl⟩ := complete_next hw
    cases hu
    obtain ⟨h1, h2, h3, -, e, h5, h6⟩ := doOp_access (ho m (by simp)) hv
    have hv' : traceLife l v.busTrace = some .opened := by
      rw [h5, setBitIndex_busTrace, traceLife_append, hs]
      simp [traceLife, h6]
    have hrest : ∀ m ∈ ms, m.op.isAccess = true := fun m h => ho m (by simp [h])
    obtain ⟨k1, k2, k3, k4⟩ := ih hrest (s := advance { v with primTrace := v.primTrace ++ ps, response := r }) hv' h
    exact ⟨k1.trans h1, k2.trans h2, k3.trans h3, k4⟩

/-! ### The three primitives, performed -/

/-- `SET_LEVEL(p, l)` (R123 to R125). -/
theorem perform_setLevel {s : State} (hc : s.cfg.Admissible) (hm : s.mapped = true) {p : Nat} (hp : p < 58)
    (i : Option Nat) (l : Level) :
    perform (microSetLevel s.cfg i p l) s = .next { s.afterPrims [.setLevel p l] with
      seq := { s.seq with bitIndex := i, upc := s.seq.upc + 1 }, response := s.response } := by
  have hw : wordIndex p < 2 := by simp only [wordIndex]; omega
  have hr : ∃ r, regOf s.cfg (levelWord s.cfg p l) = some r := by
    cases l
    · exact ⟨_, regOf_clr hc hw⟩
    · exact ⟨_, regOf_set hc hw⟩
  obtain ⟨r, hr⟩ := hr
  have hd : doOp (microSetLevel s.cfg i p l).op (setBitIndex i s) =
      .next { (setBitIndex i s) with
        block := blockEvent s.cfg s.block (levelEvent s.cfg p l)
        busTrace := s.busTrace ++ [levelEvent s.cfg p l]
        padTrace := s.padTrace ++ padsAfter s.cfg s.block [levelEvent s.cfg p l] } :=
    regWrite_listed (s := setBitIndex i s) (oneBit p) hm hr
  show andThen (doOp (microSetLevel s.cfg i p l).op (setBitIndex i s)) _ = _
  rw [hd]
  rfl

/-- `Delay(n)` (R170). -/
theorem perform_delay (s : State) (i : Option Nat) (n : Nat) :
    perform ⟨.delay n, i, none⟩ s = .next { s.afterPrims [.delay n] with
      seq := { s.seq with bitIndex := i, upc := s.seq.upc + 1 }, response := s.response } := by
  simp [perform, doOp, complete, delay, setBitIndex, advance, State.afterPrims, primBus, blockAfter, blockEvent,
    padsAfter, delayUnits]

/-- The write of a read-modify-write, `tmp` being loaded (R94, R121). -/
theorem perform_writeField {s : State} {w : Nat} {r : Reg} {v : Word} (hm : s.mapped = true)
    (hr : regOf s.cfg w = some r) (ht : s.seq.tmp = some v) (sh : Nat) (code : FnCode) (i : Option Nat)
    (k : Option Completes) {p : Nat} {f : PinFunction} (hk : k = some (.setFunction p f)) :
    perform ⟨.regWrite w (.field sh code), i, k⟩ s = .next { s with
      block := blockEvent s.cfg s.block (.busWrite w (updateField v sh code))
      busTrace := s.busTrace ++ [.busWrite w (updateField v sh code)]
      primTrace := s.primTrace ++ [.setFunction p f]
      padTrace := s.padTrace ++ padsAfter s.cfg s.block [.busWrite w (updateField v sh code)]
      seq := { s.seq with bitIndex := i, upc := s.seq.upc + 1 } } := by
  subst hk
  have ht' : (setBitIndex i s).seq.tmp = some v := ht
  simp only [perform, doOp, ht']
  rw [regWrite_listed (s := setBitIndex i s) (r := r) _ hm hr]
  rfl

/-- `SET_FUNCTION(p, f)` (R121). -/
theorem performAll_setFunction {s : State} (hc : s.cfg.Admissible) (hm : s.mapped = true) {p : Nat} (hp : p < 58)
    (f : PinFunction) :
    ∃ q, performAll (microSetFunction s.cfg p f) s = .next { s with
      block := s.block.withFunction s.cfg p f
      busTrace := s.busTrace ++ functionEvents s.cfg p f (s.block.fselWord (fselIndex p))
      primTrace := s.primTrace ++ [.setFunction p f]
      padTrace := s.padTrace ++ padChanges s.cfg s.block (s.block.withFunction s.cfg p f)
      seq := q } := by
  have hw : fselIndex p < 6 := by simp only [fselIndex]; omega
  have hr : regOf s.cfg (fselWord p) = some (.fsel ⟨fselIndex p, hw⟩) := regOf_fsel hc hw
  have hb := blockEvent_function hc s.block hp f
  refine ⟨{ s.seq with tmp := some (s.block.fselWord (fselIndex p)), bitIndex := none, upc := s.seq.upc + 1 + 1 }, ?_⟩
  have h1 : perform ⟨.regRead (fselWord p), none, none⟩ s = .next { s with
      busTrace := s.busTrace ++ [.busRead (fselWord p) (s.block.fselWord (fselIndex p))]
      seq := { s.seq with
        tmp := some (s.block.fselWord (fselIndex p)), bitIndex := none, upc := s.seq.upc + 1 } } := by
    simp only [perform, doOp]
    rw [regRead_listed (s := setBitIndex none s) (r := .fsel ⟨fselIndex p, hw⟩) hm hr]
    rfl
  have h2 := perform_writeField (s := { s with
      busTrace := s.busTrace ++ [.busRead (fselWord p) (s.block.fselWord (fselIndex p))]
      seq := { s.seq with
        tmp := some (s.block.fselWord (fselIndex p)), bitIndex := none, upc := s.seq.upc + 1 } })
    hm hr rfl (fselShift p) (fnCode s.cfg f) none (some (.setFunction p f)) rfl
  simp only [microSetFunction, performAll_cons, h1, andThen_next, h2]
  simp only [performAll_nil, padsAfter, hb, List.append_nil, functionEvents, List.append_assoc,
    List.cons_append, List.nil_append]

/-- The micro-operation of a level write or a delay (the two other events stand for no single micro-operation and
`isSerial` rules them out). -/
def serialMicro (c : Config) (i : Option Nat) : PrimEvent → Micro
  | .setLevel p l => microSetLevel c i p l
  | .delay n => ⟨.delay n, i, none⟩
  | .setFunction _ _ => ⟨.delay 0, i, none⟩
  | .getLevel _ _ => ⟨.delay 0, i, none⟩

/-- Whether an event is a level write of an existing pin or a delay. -/
def isSerial : PrimEvent → Bool
  | .setLevel p _ => decide (p < 58)
  | .delay _ => true
  | .setFunction _ _ => false
  | .getLevel _ _ => false

theorem afterPrims_append (s : State) (ps qs : List PrimEvent) :
    s.afterPrims (ps ++ qs) = (s.afterPrims ps).afterPrims qs := by
  simp [State.afterPrims, blockAfter_append, padsAfter_append, delayUnits_append, Nat.add_assoc, List.append_assoc]

/-- One level write: one latch, one bus event, at most one pad event (R124, R125). -/
theorem afterPrims_setLevel {s : State} (hc : s.cfg.Admissible) {p : Nat} (hp : p < 58) (l : Level) :
    s.afterPrims [.setLevel p l] = { s with
      block := s.block.withLatch p l
      busTrace := s.busTrace ++ [levelEvent s.cfg p l]
      primTrace := s.primTrace ++ [.setLevel p l]
      padTrace := s.padTrace ++ padChanges s.cfg s.block (s.block.withLatch p l)
      response := none } := by
  have hb := blockEvent_levelEvent hc s.block hp l
  have hb' : padsAfter s.cfg s.block [levelEvent s.cfg p l] =
      padChanges s.cfg s.block (s.block.withLatch p l) := by
    rw [← hb]; simp [padsAfter, levelEvent]
  simp only [State.afterPrims, List.flatMap_cons, List.flatMap_nil, primBus, List.append_nil, blockAfter_cons,
    blockAfter_nil, hb, hb']
  simp [delayUnits, levelEvent]

/-- A list of level writes and delays leaves the state `afterPrims` says (R72, R110). -/
theorem performAll_serial {s : State} (hc : s.cfg.Admissible) (hm : s.mapped = true)
    (es : List (Option Nat × PrimEvent)) (hs : ∀ e ∈ es, isSerial e.2 = true) :
    ∃ q, performAll (es.map fun e => serialMicro s.cfg e.1 e.2) s =
      .next { s.afterPrims (es.map Prod.snd) with seq := q, response := s.response } := by
  induction es generalizing s with
  | nil => exact ⟨s.seq, by simp [State.afterPrims, padsAfter, delayUnits]⟩
  | cons e es ih =>
    obtain ⟨i, e⟩ := e
    have he : isSerial e = true := hs (i, e) (by simp)
    have hrest : ∀ e ∈ es, isSerial e.2 = true := fun e h => hs e (by simp [h])
    have hstep : perform (serialMicro s.cfg i e) s = .next { s.afterPrims [e] with
        seq := { s.seq with bitIndex := i, upc := s.seq.upc + 1 }, response := s.response } := by
      cases e with
      | setLevel p l => exact perform_setLevel hc hm (by simpa [isSerial] using he) i l
      | delay n => exact perform_delay s i n
      | setFunction p f => cases he
      | getLevel p l => cases he
    obtain ⟨q, hq⟩ := ih (s := { s.afterPrims [e] with
        seq := { s.seq with bitIndex := i, upc := s.seq.upc + 1 }, response := s.response }) hc hm hrest
    refine ⟨q, ?_⟩
    simp only [List.map_cons, performAll_cons, hstep, andThen_next]
    refine hq.trans ?_
    rw [show e :: List.map Prod.snd es = [e] ++ List.map Prod.snd es from rfl, afterPrims_append]
    rfl

end Sys2Proof.Machine
end

