-- ==== Sys2Proof/Laws/Exec.lean ====
section
/-! SUPPORT. Running one command: exec in terms of the gate and the expansion, and what a command can answer. -/

namespace Sys2Proof.Machine

/-- Every arm of exec is one command over the gate of R203 and the expansion of R110. -/
theorem exec_eq_command (i : Instr) (s : State) :
    exec i s = command i (gateOf s.life i) (expansion s.cfg s.env i) s := by
  cases i <;> rfl

/-- A legal command that the lifecycle lets pass performs its expansion (R99). -/
theorem command_run {i : Instr} {s : State} (hs : s.seq.cur = none) (hi : i.WellFormed) (ms : List Micro) :
    command i .run ms s = runToEnd ms (accept i s) := by
  simp [command, hs, hi]

theorem command_refuse {i : Instr} {s : State} (hs : s.seq.cur = none) (hi : i.WellFormed) (why : RefuseReason)
    (ms : List Micro) : command i (.refuse why) ms s = .next (refuse why s) := by
  simp [command, hs, hi]

theorem command_noOp {i : Instr} {s : State} (hs : s.seq.cur = none) (hi : i.WellFormed) (ms : List Micro) :
    command i .noOp ms s = .next (respond none s) := by
  simp [command, hs, hi]

theorem command_illegal {i : Instr} {s : State} (hs : s.seq.cur = none) (hi : ¬ i.WellFormed) (g : Gate)
    (ms : List Micro) : command i g ms s = .next (refuse .illegalCommand s) := by
  simp [command, hs, hi]

theorem command_busy {i j : Instr} {s : State} (hs : s.seq.cur = some j) (g : Gate) (ms : List Micro) :
    command i g ms s = .next s := by
  simp [command, hs]

/-- What a command can answer: not accepted, refused, a no-op, or its whole expansion performed. -/
theorem command_next {i : Instr} {g : Gate} {ms : List Micro} {s t : State} (h : command i g ms s = .next t) :
    (s.seq.cur ≠ none ∧ t = s) ∨
    (s.seq.cur = none ∧ ¬ i.WellFormed ∧ t = refuse .illegalCommand s) ∨
    (s.seq.cur = none ∧ i.WellFormed ∧ ∃ why, g = .refuse why ∧ t = refuse why s) ∨
    (s.seq.cur = none ∧ i.WellFormed ∧ g = .noOp ∧ t = respond none s) ∨
    (s.seq.cur = none ∧ i.WellFormed ∧ g = .run ∧ runToEnd ms (accept i s) = .next t) := by
  cases hs : s.seq.cur with
  | some j => rw [command_busy hs] at h; cases h; exact .inl ⟨by simp, rfl⟩
  | none =>
    by_cases hi : i.WellFormed
    · cases g with
      | refuse why => rw [command_refuse hs hi] at h; cases h; exact .inr (.inr (.inl ⟨rfl, hi, why, rfl, rfl⟩))
      | noOp => rw [command_noOp hs hi] at h; cases h; exact .inr (.inr (.inr (.inl ⟨rfl, hi, rfl, rfl⟩)))
      | run => rw [command_run hs hi] at h; exact .inr (.inr (.inr (.inr ⟨rfl, hi, rfl, h⟩)))
    · rw [command_illegal hs hi] at h; cases h; exact .inr (.inl ⟨rfl, hi, rfl⟩)

/-- In a ready state every legal command but `OPEN` performs its expansion (R120, R198). -/
theorem exec_ready {i : Instr} {s : State} (h : s.Ready) (hi : i.WellFormed) (ho : i ≠ .openIface) :
    exec i s = runToEnd (expansion s.cfg s.env i) (accept i s) := by
  have hg : gateOf s.life i = .run := by
    rw [h.opened]
    cases i <;> first | rfl | exact absurd rfl ho
  rw [exec_eq_command, hg, command_run (by rw [h.idle]; rfl) hi]

/-- A command made of level writes and delays leaves the state `afterPrims` says. -/
theorem runToEnd_serial {s : State} (h : s.Ready) (i : Instr) (es : List (Option Nat × PrimEvent))
    (hs : ∀ e ∈ es, isSerial e.2 = true) :
    runToEnd (es.map fun e => serialMicro s.cfg e.1 e.2) (accept i s) = .next (s.afterPrims (es.map Prod.snd)) := by
  obtain ⟨q, hq⟩ := performAll_serial (s := accept i s) h.cfg h.mapped es hs
  unfold runToEnd
  rw [show s.cfg = (accept i s).cfg from rfl, hq]
  simp only [andThen_next, finish, State.afterPrims, accept]
  rw [← h.idle]

/-- The six controlled pins are pins below 32 (R12). -/
theorem controlled_lt {c : Config} (h : c.Admissible) {p : Nat} (hp : p ∈ c.controlledPins) : p < 32 :=
  h.2.2.2.2 p hp

end Sys2Proof.Machine
end

