-- ==== Sys2Proof/Laws/PerInstr.lean ====
section
/-! SUPPORT. The family EncodeRow, one lemma per constructor of Instr: the word of a well-formed command lies in its
own row of spec/opcode_table.json (spec/30_encoding.md R101). -/

namespace Sys2Proof.Laws.EncodeRow

/-- The encoded command matches its row's mask and match values. -/
def Statement (i : Instr) : Prop := i.WellFormed → encode i &&& maskOf i = matchOf i

theorem openIface : Statement .openIface := fun _ => by decide

theorem setFunction (pin : PinField) (fn : PinFunction) : Statement (.setFunction pin fn) := fun _ => by
  cases fn <;> (revert pin; decide)

theorem pinSet (pin : PinField) : Statement (.pinSet pin) := fun _ => by revert pin; decide

theorem pinClr (pin : PinField) : Statement (.pinClr pin) := fun _ => by revert pin; decide

theorem getLevel (pin : PinField) : Statement (.getLevel pin) := fun _ => by revert pin; decide

theorem initPins : Statement .initPins := fun _ => by decide

theorem closeIface : Statement .closeIface := fun _ => by decide

theorem srWrite (byte : Byte) : Statement (.srWrite byte) := fun _ => by revert byte; decide +kernel

theorem dispStart : Statement .dispStart := fun _ => by decide

theorem dispByte (byte : Byte) : Statement (.dispByte byte) := fun _ => by revert byte; decide +kernel

theorem dispCmd (byte : Byte) : Statement (.dispCmd byte) := fun _ => by revert byte; decide +kernel

end Sys2Proof.Laws.EncodeRow
end

