-- ==== Sys2Proof/Laws/Step.lean ====
section
/-! SUPPORT. What one step can do, said once (spec/30_encoding.md R99, spec/20_memory.md R69). -/

namespace Sys2Proof.Machine

/-- Taking the word on the port touches nothing but the host's stream. -/
theorem takeWord_some {s t : State} {w : CmdWord} (h : takeWord s = some (w, t)) :
    ∃ rest, s.cmds = w :: rest ∧ t = { s with cmds := rest } := by
  unfold takeWord at h
  split at h
  · cases h
  · rename_i hc; cases h; exact ⟨_, hc, rfl⟩

/-- A step in Idle, by what stands on the port. -/
theorem step_idle {s : State} (hs : s.seq.cur = none) :
    (s.cmds = [] ∧ step s = .next s) ∨
    (∃ w rest i, s.cmds = w :: rest ∧ decode w = .legal i ∧ step s = exec i { s with cmds := rest }) ∨
    (∃ w rest why, s.cmds = w :: rest ∧ decode w = .illegal why ∧
      step s = .next (refuse .illegalCommand { s with cmds := rest })) := by
  cases hc : s.cmds with
  | nil => exact .inl ⟨rfl, by simp [step, hs, takeWord, hc]⟩
  | cons w rest =>
    cases hd : decode w with
    | legal i => exact .inr (.inl ⟨w, rest, i, rfl, hd, by simp [step, hs, takeWord, hc, hd]⟩)
    | illegal why => exact .inr (.inr ⟨w, rest, why, rfl, hd, by simp [step, hs, takeWord, hc, hd]⟩)

/-- A step inside a command goes on with it. -/
theorem step_busy {s : State} {i : Instr} (hs : s.seq.cur = some i) : step s = resume i s := by
  simp [step, hs]

/-- The decoder gives well-formed commands only (R103 c). -/
theorem decode_wellFormed {w : CmdWord} {i : Instr} (h : decode w = .legal i) : i.WellFormed := by
  have hp : ∀ j, decodePin j = .legal i → i.WellFormed := by
    intro j hj
    unfold decodePin at hj
    split at hj
    · rename_i hw; cases hj; exact hw
    · cases hj
  unfold decode at h
  split at h
  all_goals first
    | (unfold decodeN at h; split at h <;> cases h; rfl)
    | (unfold decodeB at h; split at h <;> cases h; rfl)
    | (unfold decodePinWithBit at h; split at h <;> [exact hp _ h; cases h])
    | (unfold decodeP at h; split at h <;> [exact hp _ h; cases h])
    | cases h

/-- What a command, accepted or not, can do to all but the response, the primitive trace and the lifecycle. -/
theorem exec_moves {i : Instr} {s t : State} (h : exec i s = .next t) :
    t.cfg = s.cfg ∧ t.env = s.env ∧ t.cmds = s.cmds ∧ (∃ es, t.busTrace = s.busTrace ++ es ∧
      t.block = blockAfter s.cfg s.block es ∧ t.padTrace = s.padTrace ++ padsAfter s.cfg s.block es ∧
      t.elapsedUnits = s.elapsedUnits + delayUnits es) := by
  rw [exec_eq_command] at h
  have same : ∀ u : State, u.busTrace = s.busTrace → u.block = s.block → u.padTrace = s.padTrace →
      u.elapsedUnits = s.elapsedUnits → ∃ es, u.busTrace = s.busTrace ++ es ∧
      u.block = blockAfter s.cfg s.block es ∧ u.padTrace = s.padTrace ++ padsAfter s.cfg s.block es ∧
      u.elapsedUnits = s.elapsedUnits + delayUnits es :=
    fun u h1 h2 h3 h4 => ⟨[], by simp [h1], by simp [h2], by simp [h3, padsAfter], by simp [h4, delayUnits]⟩
  rcases command_next h with ⟨-, rfl⟩ | ⟨-, -, rfl⟩ | ⟨-, -, why, -, rfl⟩ | ⟨-, -, -, rfl⟩ | ⟨-, -, -, h⟩
  · exact ⟨rfl, rfl, rfl, same _ rfl rfl rfl rfl⟩
  · exact ⟨rfl, rfl, rfl, same _ rfl rfl rfl rfl⟩
  · exact ⟨rfl, rfl, rfl, same _ rfl rfl rfl rfl⟩
  · exact ⟨rfl, rfl, rfl, same _ rfl rfl rfl rfl⟩
  · have := (runToEnd_moves h).1
    exact ⟨this.cfg, this.env, this.cmds, this.events⟩

/-- A command leaves the sequencer Idle where it found it Idle. -/
theorem exec_idle {i : Instr} {s t : State} (hs : s.seq = .idle) (h : exec i s = .next t) : t.seq = .idle := by
  rw [exec_eq_command] at h
  rcases command_next h with ⟨-, rfl⟩ | ⟨-, -, rfl⟩ | ⟨-, -, why, -, rfl⟩ | ⟨-, -, -, rfl⟩ | ⟨-, -, -, h⟩
  · exact hs
  · exact hs
  · exact hs
  · exact hs
  · exact (runToEnd_moves h).2

end Sys2Proof.Machine
end

