-- ==== Sys2Proof/Tests/Slice0.lean ====
section
/-! SUPPORT. The model's own tests. Every expected value is one the spec prints (spec/95_test_vectors.md, or the
example of a rule), not the model's answer; the witness theorems at the end show, for every statement that has
hypotheses, a state and operands that meet them all together. -/

-- One theorem after another: as many at once as there are tests would each take a thread's memory.
set_option Elab.async false

namespace Sys2Proof.Machine.Tests

/-! ### Helpers -/

/-- A state with the interface open, over a Register Block. -/
def openWith (fsel : Vector Word 6) (olat : Latches) : State :=
  { State.powerOn .cfgExample .good ⟨fsel, olat⟩ with life := .opened, mapped := true, busTrace := [.map] }

/-- The function-select words `INIT_PINS` leaves over zeros (V41). -/
def sixOutputs : Vector Word 6 := #v[0x00048000, 0x08000240, 0x00008000, 0, 0, 0]

/-- The interface open, every function field and latch zero (the vectors' common start, after `OPEN`). -/
def opened : State := openWith #v[0, 0, 0, 0, 0, 0] 0

/-- The interface open and the six controlled pins Output, their lines Low. -/
def driving : State := openWith sixOutputs 0

/-- The interface after `CLOSE`. -/
def closed : State := { driving with life := .closed, mapped := false, busTrace := [.map, .unmap] }

/-- The interface after an `OPEN` that found no device (P4). -/
def aborted : State :=
  { State.powerOn .cfgExample ⟨true, false, true⟩ .zero with
    life := .aborted, fatalCause := some .openDeviceFailed, busTrace := [.fatal .openDeviceFailed] }

/-- A sequencer two micro-operations into `DISP_START`. -/
def busy : State := { driving with seq := ⟨some .dispStart, 2, none, none, none, none⟩ }

/-- A test reads fields of the next state; where the machine stopped it reads none. -/
def next? (r : Host.Outcome State Fault Refusal) : Option State :=
  match r with
  | .next s => some s
  | .fault _ => none
  | .refused _ => none

/-- The refusal with which the machine stopped, if it did. -/
def stopped? (r : Host.Outcome State Fault Refusal) : Option Refusal :=
  match r with
  | .next _ => none
  | .fault _ => none
  | .refused e => some e

/-- The bus events a command adds to a state with a trace of one event. -/
def bus? (r : Host.Outcome State Fault Refusal) : Option (List BusEvent) := (next? r).map fun s => s.busTrace.drop 1

/-- The response of the next state. -/
def response? (r : Host.Outcome State Fault Refusal) : Option (Option Response) := (next? r).map State.response

/-- Abbreviations of 95_test_vectors.md: a write, a read, `Delay(1)`. -/
def w (i : Nat) (v : Word) : BusEvent := .busWrite i v
def r (i : Nat) (v : Word) : BusEvent := .busRead i v
def dly : BusEvent := .delay 1

/-- A rising and a falling edge of a line in the pad traces of 95_test_vectors.md. -/
def up (p : Nat) : PadEvent := .change p (.driven .low) (.driven .high)
def down (p : Nat) : PadEvent := .change p (.driven .high) (.driven .low)

/-! ### WellFormed refuses ill-formed commands (R103 c) -/

theorem test_wellFormed_refuses_setFunction_58 : (Instr.setFunction 58 .output).wellFormed = false := by decide
theorem test_wellFormed_refuses_pinSet_63 : (Instr.pinSet 63).wellFormed = false := by decide
theorem test_wellFormed_refuses_pinClr_58 : (Instr.pinClr 58).wellFormed = false := by decide
theorem test_wellFormed_refuses_getLevel_58 : (Instr.getLevel 58).wellFormed = false := by decide
theorem test_wellFormed_takes_pin_57 : (Instr.getLevel 57).wellFormed = true := by decide

/-! ### Decoding: words written out from the format table of R101 (V50, V51) -/

theorem test_decode_open : decode (0b0001#4 ++ 0b000000000000#12) = .legal .openIface := by decide
theorem test_decode_setFunction_output :
    decode (0b0010#4 ++ 0b00000#5 ++ 0b1#1 ++ 0b001100#6) = .legal (.setFunction 12 .output) := by decide
theorem test_decode_setFunction_input :
    decode (0b0010#4 ++ 0b00000#5 ++ 0b0#1 ++ 0b111001#6) = .legal (.setFunction 57 .input) := by decide
theorem test_decode_pinSet :
    decode (0b0011#4 ++ 0b00000#5 ++ 0b1#1 ++ 0b001100#6) = .legal (.pinSet 12) := by decide
theorem test_decode_pinClr :
    decode (0b0011#4 ++ 0b00000#5 ++ 0b0#1 ++ 0b001100#6) = .legal (.pinClr 12) := by decide
/-- The pseudo-command SET_LEVEL (R106; words of R105). -/
theorem test_setLevelCommand :
    encode (setLevelCommand 12 .high) = 0x304C ∧ encode (setLevelCommand 12 .low) = 0x300C := by decide
theorem test_decode_getLevel : decode (0b0100#4 ++ 0b000000#6 ++ 0b111001#6) = .legal (.getLevel 57) := by decide
theorem test_decode_initPins : decode (0b0101#4 ++ 0b000000000000#12) = .legal .initPins := by decide
theorem test_decode_close : decode (0b0110#4 ++ 0b000000000000#12) = .legal .closeIface := by decide
theorem test_decode_srWrite : decode (0b1000#4 ++ 0b0000#4 ++ 0b10110010#8) = .legal (.srWrite 0xB2) := by decide
theorem test_decode_dispStart : decode (0b1001#4 ++ 0b000000000000#12) = .legal .dispStart := by decide
theorem test_decode_dispByte : decode (0b1010#4 ++ 0b0000#4 ++ 0b01000100#8) = .legal (.dispByte 0x44) := by decide
theorem test_decode_dispCmd : decode (0b1011#4 ++ 0b0000#4 ++ 0b10001111#8) = .legal (.dispCmd 0x8F) := by decide
/-- The illegal words of V51. -/
theorem test_decode_illegal :
    ([0x0000, 0x0FFF, 0x7000, 0xC000, 0xD000, 0xE000, 0xF000, 0xFFFF].all fun c =>
      decide (decode c = .illegal .reservedOpcode)) = true ∧
    ([0x1001, 0x1800, 0x2080, 0x2100, 0x3080, 0x4040, 0x5001, 0x6100, 0x8100, 0x9001, 0xA144, 0xB88F].all fun c =>
      decide (decode c = .illegal .mustBeZero)) = true ∧
    ([0x203A, 0x207F, 0x303A, 0x307A, 0x403A].all fun c =>
      decide (decode c = .illegal .pinOutOfRange)) = true := by decide

/-! ### OPEN (V40) -/

theorem test_open_ok : response? (execOpen .reset) = some (some .ok) := by decide +kernel
theorem test_open_no_device :
    (next? (execOpen { State.reset with env := ⟨true, false, false⟩ })).map (fun s => (s.life, s.fatalCause, s.busTrace))
      = some (.aborted, some .openDeviceFailed, [.fatal .openDeviceFailed]) := by decide +kernel

/-! ### SET_FUNCTION (V4, V14) -/

theorem test_setFunction_V4 : bus? (execSetFunction 12 .output (openWith #v[0, 0x3FFFFFFF, 0, 0, 0, 0] 0)) =
    some [r 1 0x3FFFFFFF, w 1 0x3FFFFE7F] := by decide +kernel
theorem test_setFunction_V14 : bus? (execSetFunction 57 .input (openWith #v[0, 0, 0, 0, 0, 0x00FFFFFF] 0)) =
    some [r 5 0x00FFFFFF, w 5 0x001FFFFF] := by decide +kernel

/-! ### PIN_SET (V19, V29) -/

theorem test_pinSet_V19 : bus? (execPinSet 31 opened) = some [w 7 0x80000000] := by decide +kernel
theorem test_pinSet_V29 : (next? (execPinSet 12 opened)).map (fun s => (s.block.latch 12, s.padTrace)) =
    some (.high, []) := by decide +kernel

/-! ### PIN_CLR (V18, V22) -/

theorem test_pinClr_V22 : bus? (execPinClr 57 opened) = some [w 11 0x02000000] := by decide +kernel
theorem test_pinClr_V18 : (next? (execPinClr 12 (openWith sixOutputs 0x1000))).map (fun s => (s.block.olat, s.padTrace))
    = some (0, [down 12]) := by decide +kernel

/-! ### GET_LEVEL (V24, V25), all pins Output, so that no level is drawn -/

theorem test_getLevel_V24 : bus? (execGetLevel 5
    (openWith #v[0x09249249, 0x09249249, 0x09249249, 0x09249249, 0x09249249, 0x00249249] 0x20)) =
    some [r 13 0x00000020] := by decide +kernel
theorem test_getLevel_V26 : response? (execGetLevel 32
    (openWith #v[0x09249249, 0x09249249, 0x09249249, 0x09249249, 0x09249249, 0x00249249] 0x100000000)) =
    some (some (.level .high)) := by decide +kernel

/-! ### INIT_PINS (V41, V43 a) -/

theorem test_initPins_V41 : bus? (execInitPins opened) = some
    [r 1 0, w 1 0x40, r 0 0, w 0 0x00040000, r 1 0x40, w 1 0x08000040, r 1 0x08000040, w 1 0x08000240,
     r 2 0, w 2 0x00008000, r 0 0x00040000, w 0 0x00048000] := by decide +kernel
theorem test_initPins_V43 :
    (next? (execInitPins (openWith #v[0x3FFFFFFF, 0x3FFFFFFF, 0x3FFFFFFF, 0x3FFFFFFF, 0x3FFFFFFF, 0x00FFFFFF] 0))).map
      (fun s => s.block.fsel) =
    some #v[0x3FE4FFFF, 0x0FFFF27F, 0x3FFCFFFF, 0x3FFFFFFF, 0x3FFFFFFF, 0x00FFFFFF] := by decide +kernel

/-! ### CLOSE (V44, V45) -/

theorem test_close_V44 : bus? (execClose driving) = some
    [w 7 0x1000, w 10 0x40, w 10 0x00080000, w 10 0x2000, w 10 0x02000000, w 10 0x20, w 10 0, w 11 0, .unmap] := by
  decide +kernel
theorem test_close_V45 : (next? (execClose closed)).map (fun s => (s.life, s.busTrace, s.response, s.refusedMark)) =
    some (.closed, [.map, .unmap], none, false) := by decide +kernel

/-! ### SR_WRITE (V20) -/

theorem test_srWrite_V20 : bus? (execSrWrite 0xB2 driving) = some
    ([w 10 0x40, w 10 0x80000, w 7 0x80000, w 7 0x40, w 10 0x80000, w 7 0x80000,
      w 10 0x40, w 10 0x80000, w 7 0x80000, w 10 0x40, w 10 0x80000, w 7 0x80000] ++
     [w 7 0x40, w 10 0x80000, w 7 0x80000, w 7 0x40, w 10 0x80000, w 7 0x80000,
      w 10 0x40, w 10 0x80000, w 7 0x80000, w 7 0x40, w 10 0x80000, w 7 0x80000] ++
     [w 10 0x2000, w 7 0x2000]) := by decide +kernel
/-- The pad trace of V20 from all three lines Low: D is pin 6, C pin 19, L pin 13. -/
theorem test_srWrite_V20_pads : (next? (execSrWrite 0xB2 driving)).map State.padTrace = some
    ([up 19, up 6, down 19, up 19, down 6, down 19, up 19, down 19, up 19, up 6, down 19, up 19] ++
     [down 19, up 19, down 6, down 19, up 19, up 6, down 19, up 19, up 13]) := by decide +kernel

/-! ### DISP_START (V39) -/

theorem test_dispStart_V39 : bus? (execDispStart driving) =
    some [w 7 0x20, w 7 0x02000000, dly, w 10 0x02000000, dly, w 10 0x20, dly] := by decide +kernel
/-- From clock High, data Low: DC is pin 5, DD pin 25. -/
theorem test_dispStart_V39_pads : (next? (execDispStart (openWith sixOutputs 0x20))).map State.padTrace =
    some [up 25, .delay 1, down 25, .delay 1, down 5, .delay 1] := by decide +kernel

/-! ### DISP_BYTE (V30) -/

theorem test_dispByte_V30 : bus? (execDispByte 0x44 driving) = some
    ((List.range 9).flatMap fun i =>
      [w 10 0x20, dly, if i = 2 ∨ i = 6 ∨ i = 8 then w 7 0x02000000 else w 10 0x02000000, dly, w 7 0x20, dly]) := by
  decide +kernel
/-- The pad trace of V30 less its delays, from both lines Low. -/
theorem test_dispByte_V30_pads :
    (next? (execDispByte 0x44 driving)).map (fun s => s.padTrace.filter fun e => decide (e ≠ .delay 1)) = some
    ([up 5, down 5, up 5, down 5, up 25, up 5, down 5, down 25, up 5, down 5, up 5] ++
     [down 5, up 5, down 5, up 25, up 5, down 5, down 25, up 5, down 5, up 25, up 5]) := by decide +kernel

/-! ### DISP_CMD (V31) -/

theorem test_dispCmd_V31 : bus? (execDispCmd 0x8F driving) = some
    (let start := [w 7 0x20, w 7 0x02000000, dly, w 10 0x02000000, dly, w 10 0x20, dly]
     start ++ ((List.range 9).flatMap fun i =>
      [w 10 0x20, dly, if 4 ≤ i ∧ i ≤ 6 then w 10 0x02000000 else w 7 0x02000000, dly, w 7 0x20, dly]) ++ start) := by
  decide +kernel
/-- The line monitor over V31: a marker, nine samples, a marker. -/
theorem test_dispCmd_V31_monitor :
    (next? (execDispCmd 0x8F driving)).map (fun s =>
      ((DispMonitor.mk (.driven .low) (.driven .low) [] []).watch s.cfg s.padTrace).frames.drop 1) = some
    [[.driven .high, .driven .high, .driven .high, .driven .high, .driven .low, .driven .low, .driven .low,
      .driven .high, .driven .high]] := by decide +kernel

/-! ### Refusals (V46) and the step -/

theorem test_refusals_V46 :
    response? (execPinSet 12 .reset) = some (some (.refused .notOpen)) ∧
    response? (execOpen driving) = some (some (.refused .alreadyOpened)) ∧
    response? (execSrWrite 0xB2 closed) = some (some (.refused .notOpen)) ∧
    response? (execClose aborted) = some (some (.refused .notOpen)) ∧
    response? (step { aborted with cmds := [0xFFFF] }) = some (some (.refused .illegalCommand)) := by decide +kernel
theorem test_step_runs_the_word : response? (step (State.reset.withFetchWord 16 0x1000)) = some (some .ok) := by decide +kernel
theorem test_decodeTableWord : decodeTableWord 16 0xB08F = some (.dispCmd 0x8F) := by decide +kernel
theorem test_resume : (next? (step busy)).map (fun s => s.busTrace.drop 1) =
    some [dly, w 10 0x02000000, dly, w 10 0x20, dly] := by decide +kernel
/-- An unlisted word (R66) and an access outside the mapping (R61). -/
theorem test_no_access_elsewhere : stopped? (regWrite 6 1 driving) = some .unlistedWord ∧
    stopped? (regRead 0 closed) = some .unmappedAccess := by decide +kernel
/-- The one form of the Register Block is a check that refuses a reserved bit (R23). -/
theorem test_block_wf_refuses_reserved : (Block.mk #v[0, 0, 0, 0, 0, 0x01000000] 0).wf = false := by decide +kernel

/-! ### Witnesses: a state and operands that meet all hypotheses of a statement -/

/-- The configuration of `CFG_EXAMPLE` with one delay unit after each level of the shift-register writer (V38). -/
def slow : State := { driving with cfg := { Config.cfgExample with srEdgeDelay := 1 } }

theorem opened_ready : opened.Ready := ⟨by decide, by decide, by decide, by decide⟩
theorem driving_ready : driving.Ready := ⟨by decide, by decide, by decide, by decide⟩
theorem slow_ready : slow.Ready := ⟨by decide, by decide, by decide, by decide⟩
theorem high_ready : (openWith sixOutputs (BitVec.allOnes 58)).Ready := ⟨by decide, by decide, by decide, by decide⟩
theorem reset_inv : State.reset.Inv :=
  ⟨by decide, by decide, by decide, by decide, by decide, by decide, by decide⟩
theorem driving_inv : driving.Inv :=
  ⟨by decide, by decide, by decide, by decide, by decide, by decide, by decide⟩
theorem closed_inv : closed.Inv :=
  ⟨by decide, by decide, by decide, by decide, by decide, by decide, by decide⟩
theorem aborted_inv : aborted.Inv :=
  ⟨by decide, by decide, by decide, by decide, by decide, by decide, by decide⟩
theorem driving_pinsOutput : driving.PinsOutput := by unfold State.PinsOutput; decide

theorem witness_DecodeEncodeRoundTrip :
    (Instr.pinSet 57).WellFormed ∧ (Instr.pinSet 0).WellFormed ∧ (Instr.srWrite 0xFF).WellFormed := by decide
theorem witness_DecodedWordIsItsEncoding :
    decode 0x2079 = .legal (.setFunction 57 .output) ∧
    (0x2079#16) &&& maskOf (.setFunction 0 .input) = matchOf (.setFunction 0 .input) := by decide
/-- The six clauses of R103, each at a boundary word. -/
theorem witness_IllegalWordRefused :
    driving.seq.cur = none ∧ ({ driving with cmds := [0x0000] } : State).cmds = 0x0000 :: [] ∧
    ((0x0000#16).extractLsb' 12 4).toNat = 0 ∧ ((0x7000#16).extractLsb' 12 4).toNat = 7 ∧
    12 ≤ ((0xC000#16).extractLsb' 12 4).toNat ∧
    (((0x1001#16).extractLsb' 12 4).toNat = 1 ∧ (0x1001#16).extractLsb' 0 12 ≠ 0#12) ∧
    (((0x9800#16).extractLsb' 12 4).toNat = 9 ∧ (0x9800#16).extractLsb' 0 12 ≠ 0#12) ∧
    (((0x2080#16).extractLsb' 12 4).toNat = 2 ∧ (0x2080#16).extractLsb' 7 5 ≠ 0#5) ∧
    (((0x4040#16).extractLsb' 12 4).toNat = 4 ∧ (0x4040#16).extractLsb' 6 6 ≠ 0#6) ∧
    (((0x8100#16).extractLsb' 12 4).toNat = 8 ∧ (0x8100#16).extractLsb' 8 4 ≠ 0#4) ∧
    (((0x403A#16).extractLsb' 12 4).toNat = 4 ∧ 57 < ((0x403A#16).extractLsb' 0 6).toNat) := by decide
theorem witness_PinPlacesDistinct : 0 ≤ 57 ∧ 57 ≤ 57 ∧ (0 : Nat) ≠ 57 := by decide
theorem witness_StepRunsDecodedCommand :
    ({ driving with cmds := [0x304C] } : State).seq.cur = none ∧
    ({ driving with cmds := [0x304C] } : State).cmds = 0x304C :: [] ∧ decode 0x304C = .legal (.pinSet 12) := by decide
theorem witness_FetchedWordRunsNext : decodeTableWord 16 0x2079 = some (.setFunction 57 .output) := by decide
theorem witness_IdleWaitsForWord : driving.seq.cur = none ∧ driving.cmds = [] := by decide
/-- At the first, a middle and the last micro-operation. -/
theorem witness_ResumeAgreesWithExec :
    driving.seq.cur = none ∧ Instr.dispStart.WellFormed ∧ gateOf driving.life .dispStart = .run ∧
    (expansion driving.cfg driving.env .dispStart).length = 7 ∧
    ∀ k ∈ [0, 2, 7], (next? (performAll ((expansion driving.cfg driving.env .dispStart).take k)
      (accept .dispStart driving))).isSome = true := by decide +kernel
theorem witness_BusyAcceptsNoWord : busy.seq.cur ≠ none ∧ (next? (step busy)).isSome = true := by decide +kernel
theorem witness_ArgumentsNeverChange : (next? (step { driving with cmds := [0x304C] })).isSome = true := by
  decide +kernel
theorem witness_BlockFollowsBusTrace : (next? (step { driving with cmds := [0x304C] })).isSome = true := by
  decide +kernel
theorem witness_ResetValues : Block.zero.wf = true := by decide
theorem witness_StepKeepsInvariant :
    State.reset.Inv ∧ (next? (step State.reset)).isSome = true ∧ driving.Inv ∧ (next? (step driving)).isSome = true :=
  ⟨reset_inv, by decide +kernel, driving_inv, by decide +kernel⟩
theorem witness_StepNeverStops : State.reset.Inv ∧ driving.Inv ∧ closed.Inv ∧ aborted.Inv :=
  ⟨reset_inv, driving_inv, closed_inv, aborted_inv⟩
theorem witness_AccessOnlyWhileMapped :
    ({ driving with busTrace := [.map, .busWrite 7 1] } : State).Inv ∧
    ({ driving with busTrace := [.map, .busWrite 7 1] } : State).busTrace = [.map] ++ .busWrite 7 1 :: [] ∧
    (∃ i v, (BusEvent.busWrite 7 1) = .busWrite i v) :=
  ⟨⟨by decide, by decide, by decide, by decide, by decide, by decide, by decide⟩, rfl, 7, 1, rfl⟩
theorem witness_AbortedTouchedNothing : aborted.Inv ∧ aborted.life = .aborted := ⟨aborted_inv, rfl⟩
/-- The three disjuncts. -/
theorem witness_LifeTransitions :
    (next? (exec (.pinSet 12) driving)).map State.life = some .opened ∧
    (next? (exec .openIface .reset)).map State.life = some .opened ∧
    (next? (exec .closeIface driving)).map State.life = some .closed := by decide +kernel
/-- A state of each lifecycle value; an illegal word. -/
theorem witness_LifecycleTable :
    (∀ s ∈ [State.reset, driving, closed, aborted],
      s.seq = .idle ∧ s.cfg.Admissible ∧ s.mapped = decide (s.life = .opened)) ∧
    [State.reset, driving, closed, aborted].map State.life = [.unopened, .opened, .closed, .aborted] ∧
    decode 0x307A = .illegal .pinOutOfRange ∧ (Instr.pinSet 57).WellFormed := by decide +kernel
theorem witness_RefusalChangesNothing :
    State.reset.seq.cur = none ∧ response? (exec (.pinSet 12) .reset) = some (some (.refused .notOpen)) := by
  decide +kernel
theorem witness_PinAbove57Refused :
    State.reset.seq.cur = none ∧ 57 < (58 : PinField).toNat ∧ 57 < (63 : PinField).toNat := by decide
theorem witness_OpenMapsOrAborts :
    State.reset.seq = .idle ∧ State.reset.life = .unopened ∧ closed.seq = .idle ∧ closed.life ≠ .unopened := by decide
/-- The four clauses: an environment for each. -/
theorem witness_FatalCauseCodes :
    ∀ e ∈ [Env.mk false true true, Env.mk true false true, Env.mk true true false, Env.mk true true true],
      ({ State.reset with env := e } : State).seq = .idle ∧ ({ State.reset with env := e } : State).life = .unopened := by
  decide
/-- The states in which a command is refused `NOT_OPEN`, for every statement with a `NeedsOpen` clause. -/
theorem witness_NeedsOpen :
    ∀ s ∈ [State.reset, closed, aborted], s.seq = .idle ∧ s.life ≠ .opened := by decide
theorem witness_InitPinsMakesOutputs : opened.Ready ∧ 12 ∈ opened.cfg.controlledPins ∧ 57 ∉ opened.cfg.controlledPins :=
  ⟨opened_ready, by decide, by decide⟩
theorem witness_InitPinsAgainChangesNothing : driving.Ready ∧ driving.PinsOutput ∧ driving.block.wf = true :=
  ⟨driving_ready, driving_pinsOutput, by decide⟩
theorem witness_CloseDrivesSafeLevels :
    driving.Ready ∧ State.reset.seq = .idle ∧ State.reset.life = .unopened ∧ aborted.seq = .idle ∧
    aborted.life = .aborted := ⟨driving_ready, by decide, by decide, by decide, by decide⟩
theorem witness_SecondCloseIsNoOp : closed.seq = .idle ∧ closed.life = .closed := by decide
/-- A controlled pin that is Output, and one that is not. -/
theorem witness_TeardownLeavesSafeLevels :
    driving.Ready ∧ (12, .high) ∈ driving.cfg.safeIdle ∧ driving.block.isOutput driving.cfg 12 = true ∧
    opened.Ready ∧ (12, .high) ∈ opened.cfg.safeIdle ∧ opened.block.isOutput opened.cfg 12 = false :=
  ⟨driving_ready, by decide, by decide, opened_ready, by decide, by decide⟩
theorem witness_NoRuntimeErrors :
    driving.Ready ∧ (Instr.pinSet 57).WellFormed ∧ Instr.pinSet 57 ≠ .openIface ∧
    Instr.closeIface.WellFormed ∧ Instr.closeIface ≠ .openIface :=
  ⟨driving_ready, by decide, by decide, by decide, by decide⟩
/-- The first and the last pin. -/
theorem witness_SetFunctionWritesField : opened.Ready ∧ (0 : PinField).toNat ≤ 57 ∧ (57 : PinField).toNat ≤ 57 :=
  ⟨opened_ready, by decide, by decide⟩
theorem witness_SetFunctionRoundTrip :
    opened.Ready ∧ (12 : PinField).toNat ≤ 57 ∧ 13 ≤ 57 ∧ 13 ≠ (12 : PinField).toNat ∧ 0 ≠ (12 : PinField).toNat / 10 :=
  ⟨opened_ready, by decide, by decide, by decide, by decide⟩
theorem witness_PinSetSetsOneLatch : opened.Ready ∧ (31 : PinField).toNat ≤ 57 ∧ (32 : PinField).toNat ≤ 57 :=
  ⟨opened_ready, by decide, by decide⟩
theorem witness_PinClrClearsOneLatch : opened.Ready ∧ (31 : PinField).toNat ≤ 57 ∧ (57 : PinField).toNat ≤ 57 :=
  ⟨opened_ready, by decide, by decide⟩
/-- A pin whose pad moves, and one whose pad does not. -/
theorem witness_LevelWriteFrame :
    driving.Ready ∧ (12 : PinField).toNat ≤ 57 ∧ driving.block.isOutput driving.cfg 12 = true ∧
    driving.block.latch 12 ≠ .high ∧ (57 : PinField).toNat ≤ 57 ∧ driving.block.isOutput driving.cfg 57 = false :=
  ⟨driving_ready, by decide, by decide, by decide, by decide, by decide⟩
theorem witness_LevelIsolation :
    driving.Ready ∧ (5 : PinField).toNat ≤ 57 ∧ (6 : PinField).toNat ≤ 57 ∧ (57 : PinField).toNat ≤ 57 ∧
    (5 : PinField) ≠ 6 ∧ driving.block.isOutput driving.cfg 5 = true :=
  ⟨driving_ready, by decide, by decide, by decide, by decide, by decide⟩
/-- An Output pin and one that is not. -/
theorem witness_GetLevelReadsLevel :
    driving.Ready ∧ (12 : PinField).toNat ≤ 57 ∧ driving.block.isOutput driving.cfg 12 = true ∧
    (57 : PinField).toNat ≤ 57 ∧ driving.block.isOutput driving.cfg 57 = false :=
  ⟨driving_ready, by decide, by decide, by decide, by decide⟩
theorem witness_HiddenLatchShowsWhenOutput :
    opened.Ready ∧ (57 : PinField).toNat ≤ 57 ∧ opened.block.isOutput opened.cfg 57 = false :=
  ⟨opened_ready, by decide, by decide⟩
/-- Both words, the last pin and the first bit that names none. -/
theorem witness_SetPortSetsLatches :
    driving.cfg.Admissible ∧ driving.mapped = true ∧ 0 < 2 ∧ 1 < 2 ∧ 32 * 1 + 25 ≤ 57 ∧ ¬ 32 * 1 + 26 ≤ 57 ∧
    57 / 32 = 1 ∧ (0x02000000#32).getLsbD (57 % 32) = true := by decide
theorem witness_ClearPortClearsLatches :
    driving.cfg.Admissible ∧ driving.mapped = true ∧ 0 < 2 ∧ 1 < 2 ∧ 31 / 32 = 0 ∧
    (0x80000000#32).getLsbD (31 % 32) = true := by decide
theorem witness_LevelRegisterReadsLevels :
    driving.cfg.Admissible ∧ driving.mapped = true ∧ 1 < 2 ∧ 32 * 1 + 25 ≤ 57 ∧ ¬ 32 * 1 + 26 ≤ 57 ∧ 31 < 32 := by
  decide
theorem witness_FunctionSelectStorage : driving.cfg.Admissible ∧ driving.mapped = true ∧ 0 < 6 ∧ 5 < 6 := by decide
/-- The words next to listed ones, and an unmapped state. -/
theorem witness_UnlistedAndUnmappedRefused :
    driving.cfg.Admissible ∧ driving.mapped = true ∧
    (∀ i ∈ [6, 9, 12, 15, 1024], i ∉ driving.cfg.regWords) ∧ closed.cfg.Admissible ∧ closed.mapped = false := by decide
theorem witness_WritesIdempotent :
    ((next? (regWrite 7 1 driving)).bind fun t => next? (regWrite 7 1 t)).isSome = true := by decide +kernel
/-- A level write, and a zero of `CLOSE`. -/
theorem witness_OneBitPatternsOnly :
    driving.Ready ∧ bus? (exec (.pinSet 31) driving) = some [w 7 0x80000000] ∧
    ((bus? (exec .closeIface driving)).map fun es => decide (w 11 0 ∈ es)) = some true ∧
    7 ∈ [driving.cfg.setBase, driving.cfg.setBase + 1, driving.cfg.clrBase, driving.cfg.clrBase + 1] ∧
    11 ∈ [driving.cfg.setBase, driving.cfg.setBase + 1, driving.cfg.clrBase, driving.cfg.clrBase + 1] :=
  ⟨driving_ready, by decide +kernel, by decide +kernel, by decide, by decide⟩
/-- Without and with an edge delay. -/
theorem witness_SrWriteFollowsListing :
    driving.Ready ∧ driving.cfg.srEdgeDelay = 0 ∧ slow.Ready ∧ slow.cfg.srEdgeDelay ≠ 0 :=
  ⟨driving_ready, by decide, slow_ready, by decide⟩
theorem witness_SrWriteBusTrace : driving.Ready ∧ driving.cfg.srEdgeDelay = 0 := ⟨driving_ready, by decide⟩
theorem witness_SrWriteEndState : slow.Ready := slow_ready
/-- All lines Low, and all lines High. -/
theorem witness_SrWriteEdges :
    driving.Ready ∧ (openWith sixOutputs (BitVec.allOnes 58)).Ready ∧
    ∀ s ∈ [driving, openWith sixOutputs (BitVec.allOnes 58)],
      ∀ p ∈ [s.cfg.pinSrData, s.cfg.pinSrShclk, s.cfg.pinSrLatch], s.block.isOutput s.cfg p = true :=
  ⟨driving_ready, high_ready, by decide⟩
theorem witness_SrMonitorLatchesByte :
    driving.Ready ∧ (∀ p ∈ [driving.cfg.pinSrData, driving.cfg.pinSrShclk, driving.cfg.pinSrLatch],
      driving.block.isOutput driving.cfg p = true) ∧
    (SrMonitor.mk (.driven .low) [] []).data = driving.block.pad driving.cfg driving.cfg.pinSrData :=
  ⟨driving_ready, by decide, by decide⟩
theorem witness_DispStartFollowsListing : driving.Ready := driving_ready
theorem witness_DispByteFollowsListing : driving.Ready := driving_ready
theorem witness_DispCmdIsStartByteStart : driving.Ready := driving_ready
theorem witness_DisplayDelayCounts : driving.Ready := driving_ready
/-- The four entry levels. -/
theorem witness_DispStartPadEvents :
    (∀ o : Latches, (openWith sixOutputs o).Ready) ∧
    ([0x00000000#58, 0x00000020#58, 0x02000000#58, 0x02000020#58].all fun o =>
      (openWith sixOutputs o).block.isOutput .cfgExample 5 && (openWith sixOutputs o).block.isOutput .cfgExample 25)
      = true ∧
    [0x00000000#58, 0x00000020#58, 0x02000000#58, 0x02000020#58].map (fun o : Latches =>
      ((openWith sixOutputs o).block.latch 5, (openWith sixOutputs o).block.latch 25)) =
      [(.low, .low), (.high, .low), (.low, .high), (.high, .high)] :=
  ⟨fun _ => ⟨rfl, rfl, rfl, by show Config.cfgExample.Admissible; decide⟩, by decide +kernel, by decide +kernel⟩
theorem witness_DispByteEdges :
    driving.Ready ∧ driving.block.isOutput driving.cfg driving.cfg.pinDispClk = true ∧
    driving.block.isOutput driving.cfg driving.cfg.pinDispData = true ∧
    (DispMonitor.mk (.driven .low) (.driven .low) [] []).clock =
      driving.block.pad driving.cfg driving.cfg.pinDispClk ∧
    (DispMonitor.mk (.driven .low) (.driven .low) [] []).data =
      driving.block.pad driving.cfg driving.cfg.pinDispData :=
  ⟨driving_ready, by decide, by decide, by decide, by decide⟩
theorem witness_DispCmdFrame :
    driving.Ready ∧ driving.block.isOutput driving.cfg driving.cfg.pinDispClk = true ∧
    driving.block.isOutput driving.cfg driving.cfg.pinDispData = true ∧
    (DispMonitor.mk (.driven .low) (.driven .low) [] []).clock =
      driving.block.pad driving.cfg driving.cfg.pinDispClk ∧
    (DispMonitor.mk (.driven .low) (.driven .low) [] []).data =
      driving.block.pad driving.cfg driving.cfg.pinDispData := witness_DispByteEdges

end Sys2Proof.Machine.Tests
end

section
/-! SUPPORT. Which micro-operations each command is made of (R110), and what a command makes of `life` (R35). -/

namespace Sys2Proof.Machine

/-! ### Expansions of register accesses and delays -/

/-- A list of register accesses and delays only: no `Map`, `Unmap` or `Abort`. -/
def AccessOnly (ms : List Micro) : Prop := ∀ m ∈ ms, m.op.isAccess = true

@[simp] theorem accessOnly_nil : AccessOnly [] := by simp [AccessOnly]

@[simp] theorem accessOnly_cons (m : Micro) (ms : List Micro) :
    AccessOnly (m :: ms) ↔ m.op.isAccess = true ∧ AccessOnly ms := List.forall_mem_cons

@[simp] theorem accessOnly_append (ms ns : List Micro) :
    AccessOnly (ms ++ ns) ↔ AccessOnly ms ∧ AccessOnly ns := List.forall_mem_append

theorem accessOnly_flatMap {α : Type} (xs : List α) {f : α → List Micro} (h : ∀ x, AccessOnly (f x)) :
    AccessOnly (xs.flatMap f) := by
  intro m hm
  obtain ⟨x, -, hx⟩ := List.mem_flatMap.mp hm
  exact h x m hx

@[simp] theorem regRead_isAccess (w : Nat) : (MicroOp.regRead w).isAccess = true := rfl

@[simp] theorem regWrite_isAccess (w : Nat) (v : WriteValue) : (MicroOp.regWrite w v).isAccess = true := rfl

@[simp] theorem delay_isAccess (n : Nat) : (MicroOp.delay n).isAccess = true := rfl

@[simp] theorem microSetLevel_isAccess (c : Config) (i : Option Nat) (p : Nat) (l : Level) :
    (microSetLevel c i p l).op.isAccess = true := rfl

@[simp] theorem microGetLevel_isAccess (c : Config) (p : Nat) : (microGetLevel c p).op.isAccess = true := rfl

@[simp] theorem accessOnly_microSetFunction (c : Config) (p : Nat) (f : PinFunction) :
    AccessOnly (microSetFunction c p f) := by
  simp [microSetFunction]

@[simp] theorem accessOnly_microDelay (i : Option Nat) (n : Nat) : AccessOnly (microDelay i n) := by
  unfold microDelay
  split <;> simp

theorem accessOnly_expandInitPins (c : Config) : AccessOnly (expandInitPins c) :=
  accessOnly_flatMap _ fun p => accessOnly_microSetFunction c p .output

theorem accessOnly_expandSrWrite (c : Config) (byte : Byte) : AccessOnly (expandSrWrite c byte) := by
  have hbits : AccessOnly ((List.range 8).flatMap (srBit c byte)) :=
    accessOnly_flatMap _ fun i => by simp [srBit, srEdge]
  simp [expandSrWrite, srEdge, hbits]

theorem accessOnly_expandDispStart (c : Config) : AccessOnly (expandDispStart c) := by
  simp [expandDispStart, dispEdge]

theorem accessOnly_expandDispByte (c : Config) (byte : Byte) : AccessOnly (expandDispByte c byte) := by
  have hclocked : ∀ i l, AccessOnly (dispClocked c i l) := fun i l => by simp [dispClocked, dispEdge]
  have hbits : AccessOnly ((List.range 8).flatMap fun i => dispClocked c i (bitLevel byte i)) :=
    accessOnly_flatMap _ fun i => hclocked i _
  simp [expandDispByte, hbits, hclocked]

/-- Every command but `OPEN` and `CLOSE` is made of register accesses and delays (R110). -/
theorem accessOnly_expansion (c : Config) (e : Env) {i : Instr} (ho : i ≠ .openIface) (hc : i ≠ .closeIface) :
    AccessOnly (expansion c e i) := by
  cases i with
  | openIface => exact absurd rfl ho
  | closeIface => exact absurd rfl hc
  | setFunction pin fn => exact accessOnly_microSetFunction c pin.toNat fn
  | pinSet pin => simp [expansion, expandPinSet]
  | pinClr pin => simp [expansion, expandPinClr]
  | getLevel pin => simp [expansion, expandGetLevel]
  | initPins => exact accessOnly_expandInitPins c
  | srWrite byte => exact accessOnly_expandSrWrite c byte
  | dispStart => exact accessOnly_expandDispStart c
  | dispByte byte => exact accessOnly_expandDispByte c byte
  | dispCmd byte =>
    simp [expansion, expandDispCmd, accessOnly_expandDispStart, accessOnly_expandDispByte]

/-- `CLOSE` is accesses and, last, `Unmap` (R150). -/
theorem expandClose_eq (c : Config) :
    ∃ ms, AccessOnly ms ∧ expandClose c = ms ++ [⟨.unmap, none, none⟩] := by
  refine ⟨(c.safeIdle.map fun pl => microSetLevel c none pl.1 pl.2) ++
    [⟨.regWrite (c.clrBase + 0) (.word 0), none, none⟩, ⟨.regWrite (c.clrBase + 1) (.word 0), none, none⟩], ?_, ?_⟩
  · simp [Config.safeIdle]
  · simp [expandClose]

/-! ### What a command makes of `life` -/

/-- Of the parts of `perform` only the micro-operation proper can change `life`. -/
theorem perform_life {m : Micro} {s t : State} (h : perform m s = .next t) :
    ∃ u, doOp m.op (setBitIndex m.bit s) = .next u ∧ t.life = u.life := by
  obtain ⟨u, hu, h⟩ := andThen_eq_next h
  obtain ⟨v, hv, h⟩ := andThen_eq_next h
  obtain ⟨ps, r, rfl⟩ := complete_next hv
  cases h
  exact ⟨u, hu, rfl⟩

/-- Accesses and delays leave `life`, whatever state they are performed in. -/
theorem performAll_access_life {ms : List Micro} (ho : AccessOnly ms) {s t : State}
    (h : performAll ms s = .next t) : t.life = s.life := by
  induction ms generalizing s with
  | nil => cases h; rfl
  | cons m ms ih =>
    obtain ⟨hm, hms⟩ := (accessOnly_cons m ms).mp ho
    obtain ⟨u, hu, h⟩ := andThen_eq_next h
    obtain ⟨v, hv, huv⟩ := perform_life hu
    obtain ⟨hlife, -⟩ := doOp_access hm hv
    exact (ih hms h).trans (huv.trans hlife)

/-- `OPEN` performed leaves `life` OPEN or ABORTED (R140). -/
theorem performAll_expandOpen_life {e : Env} {s t : State} (h : performAll (expandOpen e) s = .next t) :
    t.life = .opened ∨ t.life = .aborted := by
  unfold expandOpen at h
  split at h
  · cases h; exact .inr rfl
  · cases h; exact .inl rfl

/-- `CLOSE` performed leaves the interface closed: its last micro-operation is `Unmap` (R150). -/
theorem performAll_expandClose_life {c : Config} {s t : State} (h : performAll (expandClose c) s = .next t) :
    t.life = .closed := by
  obtain ⟨ms, -, hms⟩ := expandClose_eq c
  rw [hms, performAll_append] at h
  obtain ⟨u, -, hu⟩ := andThen_eq_next h
  cases hu
  rfl

/-- Ending a command leaves `life` as its micro-operations left it. -/
theorem runToEnd_life {ms : List Micro} {s t : State} (h : runToEnd ms s = .next t) :
    ∃ u, performAll ms s = .next u ∧ t.life = u.life := by
  obtain ⟨u, hu, h⟩ := andThen_eq_next h
  cases h
  exact ⟨u, hu, rfl⟩

theorem gateUnopened_eq_run {l : Life} : gateUnopened l = .run ↔ l = .unopened := by
  cases l <;> simp [gateUnopened]

theorem gateClose_eq_run {l : Life} : gateClose l = .run ↔ l = .opened := by
  cases l <;> simp [gateClose]

/-- What a command performed from its first micro-operation to its last makes of `life` (R35). -/
theorem runToEnd_expansion_life {i : Instr} {s t : State} (hg : gateOf s.life i = .run)
    (h : runToEnd (expansion s.cfg s.env i) (accept i s) = .next t) :
    t.life = s.life ∨
    (i = .openIface ∧ s.life = .unopened ∧ (t.life = .opened ∨ t.life = .aborted)) ∨
    (i = .closeIface ∧ s.life = .opened ∧ t.life = .closed) := by
  obtain ⟨u, hu, hlife⟩ := runToEnd_life h
  rw [hlife]
  by_cases ho : i = .openIface
  · subst ho
    exact .inr (.inl ⟨rfl, gateUnopened_eq_run.mp hg, performAll_expandOpen_life hu⟩)
  · by_cases hc : i = .closeIface
    · subst hc
      exact .inr (.inr ⟨rfl, gateClose_eq_run.mp hg, performAll_expandClose_life hu⟩)
    · exact .inl ((performAll_access_life (accessOnly_expansion s.cfg s.env ho hc) hu).trans (accept_life i s))

/-- Settles O19: a command that is not performed leaves `life`, and one that is performed moves it only by the `Map` or
`Abort` of `OPEN` or the `Unmap` of `CLOSE`, in the states their gates let pass. -/
theorem lifeTransitions : Obligations.LifeTransitions := by
  intro s t i h
  rw [exec_eq_command] at h
  rcases command_next h with ⟨-, rfl⟩ | ⟨-, -, rfl⟩ | ⟨-, -, why, -, rfl⟩ | ⟨-, -, -, rfl⟩ | ⟨-, -, hg, hrun⟩
  · exact .inl rfl
  · exact .inl rfl
  · exact .inl rfl
  · exact .inl rfl
  · exact runToEnd_expansion_life hg hrun

/-! ### The values after reset -/

/-- The Idle sequencer has no command and no working value, and stands at index 0 (R40, R41, R50). -/
theorem idle_values :
    Sequencer.idle.cur = none ∧ Sequencer.idle.upc = 0 ∧ Sequencer.idle.opndPin = none ∧
    Sequencer.idle.opndByte = none ∧ Sequencer.idle.tmp = none ∧ Sequencer.idle.bitIndex = none :=
  ⟨rfl, rfl, rfl, rfl, rfl, rfl⟩

/-- Settles O13, from the fields of the two resets; the machine's reset is the power-on at `cfgExample`, the good
environment and the zero Register Block, whose reserved bits are zero. -/
theorem resetValues : Obligations.ResetValues := by
  refine ⟨fun c e b hb => ?_, fun s env => ?_, .cfgExample, .good, .zero, zero_wf, rfl⟩
  · simp [State.powerOn, idle_values, hb]
  · simp [idle_values]

end Sys2Proof.Machine
end

section
/-! SUPPORT. When the decoder answers that a word is illegal (R103), format by format, and the step on such a word. -/

namespace Sys2Proof

/-! ### The format of a word, by its opcode (R100, R101) -/

theorem decode_formatN {w : CmdWord} (hop : (opcodeField w).toNat = 1 ∨ (opcodeField w).toNat = 5 ∨
    (opcodeField w).toNat = 6 ∨ (opcodeField w).toNat = 9) : ∃ i, decode w = decodeN w i := by
  rcases hop with h | h | h | h
  · exact ⟨.openIface, by simp [decode, h]⟩
  · exact ⟨.initPins, by simp [decode, h]⟩
  · exact ⟨.closeIface, by simp [decode, h]⟩
  · exact ⟨.dispStart, by simp [decode, h]⟩

theorem decode_formatB {w : CmdWord} (hop : (opcodeField w).toNat = 8 ∨ (opcodeField w).toNat = 10 ∨
    (opcodeField w).toNat = 11) : ∃ f, decode w = decodeB w f := by
  rcases hop with h | h | h
  · exact ⟨.srWrite, by simp [decode, h]⟩
  · exact ⟨.dispByte, by simp [decode, h]⟩
  · exact ⟨.dispCmd, by simp [decode, h]⟩

theorem decode_formatPinWithBit {w : CmdWord} (hop : (opcodeField w).toNat = 2 ∨ (opcodeField w).toNat = 3) :
    ∃ i, i.pin? = some (pinField w) ∧ decode w = decodePinWithBit w i := by
  rcases hop with h | h
  · exact ⟨.setFunction (pinField w) (fnField w), rfl, by simp [decode, h]⟩
  · refine ⟨if w.getLsbD 6 then .pinSet (pinField w) else .pinClr (pinField w), ?_, by simp [decode, h]⟩
    split <;> rfl

theorem decode_formatP {w : CmdWord} (hop : (opcodeField w).toNat = 4) :
    decode w = decodeP w (.getLevel (pinField w)) := by
  simp [decode, hop]

/-! ### The three cases of R103 -/

/-- R103 (a). -/
theorem decode_reservedOpcode {w : CmdWord} (hop : (opcodeField w).toNat = 0 ∨ (opcodeField w).toNat = 7 ∨
    12 ≤ (opcodeField w).toNat) : decode w = .illegal .reservedOpcode := by
  unfold decode
  split
  case h_11 => rfl
  all_goals omega

/-- R103 (b) in format N. -/
theorem decodeN_mustBeZero {w : CmdWord} (i : Instr) (hz : w.extractLsb' 0 12 ≠ 0#12) :
    decodeN w i = .illegal .mustBeZero := if_neg hz

/-- R103 (b) in format B. -/
theorem decodeB_mustBeZero {w : CmdWord} (f : Byte → Instr) (hz : w.extractLsb' 8 4 ≠ 0#4) :
    decodeB w f = .illegal .mustBeZero := if_neg hz

/-- R103 (b) in formats PF and PL. -/
theorem decodePinWithBit_mustBeZero {w : CmdWord} (i : Instr) (hz : w.extractLsb' 7 5 ≠ 0#5) :
    decodePinWithBit w i = .illegal .mustBeZero := if_neg hz

/-- R103 (b) in format P. -/
theorem decodeP_mustBeZero {w : CmdWord} (i : Instr) (hz : w.extractLsb' 6 6 ≠ 0#6) :
    decodeP w i = .illegal .mustBeZero := if_neg hz

theorem decodePin_eq_legal {i j : Instr} (h : decodePin i = .legal j) : j = i := by
  unfold decodePin at h
  split at h <;> cases h
  rfl

theorem decodePinWithBit_eq_legal {w : CmdWord} {i j : Instr} (h : decodePinWithBit w i = .legal j) : j = i := by
  unfold decodePinWithBit at h
  split at h
  · exact decodePin_eq_legal h
  · cases h

theorem decodeP_eq_legal {w : CmdWord} {i j : Instr} (h : decodeP w i = .legal j) : j = i := by
  unfold decodeP at h
  split at h
  · exact decodePin_eq_legal h
  · cases h

/-- A legal word of a pin command carries that command's operand in its pin field (R102). -/
theorem pin?_of_decode_legal {w : CmdWord} {i : Instr} (hop : (opcodeField w).toNat = 2 ∨
    (opcodeField w).toNat = 3 ∨ (opcodeField w).toNat = 4) (h : decode w = .legal i) :
    i.pin? = some (pinField w) := by
  rcases or_assoc.mpr hop with hop | hop
  · obtain ⟨j, hpin, hj⟩ := decode_formatPinWithBit hop
    rw [decodePinWithBit_eq_legal (hj.symm.trans h), hpin]
  · rw [decodeP_eq_legal ((decode_formatP hop).symm.trans h)]
    rfl

/-- The pin operand of a well-formed command names one of the 58 pins (R90). -/
theorem pin_le_57_of_wellFormed {i : Instr} {pin : PinField} (hi : i.WellFormed) (hp : i.pin? = some pin) :
    pin.toNat ≤ 57 := by
  have hlt : pin.toNat < npins := by simpa [Instr.WellFormed, Instr.wellFormed, hp] using hi
  exact Nat.le_of_lt_succ hlt

/-- R103 (c): were such a word legal, it would decode to a well-formed command with a pin above 57. Which of (b) and (c)
the decoder reports depends on the must-be-zero field, which it tests first (R104). -/
theorem decode_pinAbove57 {w : CmdWord} (hop : (opcodeField w).toNat = 2 ∨ (opcodeField w).toNat = 3 ∨
    (opcodeField w).toNat = 4) (hpin : 57 < (pinField w).toNat) : ∃ why, decode w = .illegal why := by
  cases hd : decode w with
  | legal i =>
    have hle : (pinField w).toNat ≤ 57 :=
      pin_le_57_of_wellFormed (Machine.decode_wellFormed hd) (pin?_of_decode_legal hop hd)
    omega
  | illegal why => exact ⟨why, rfl⟩

end Sys2Proof

namespace Sys2Proof.Machine

/-- A step on an illegal word takes it and refuses it, whatever makes it illegal (R103, R200). -/
theorem step_illegal {s : State} {w : CmdWord} {rest : List CmdWord} {why : Illegal} (hs : s.seq.cur = none)
    (hc : s.cmds = w :: rest) (hd : decode w = .illegal why) :
    step s = .next (refuse .illegalCommand { s with cmds := rest }) := by
  rcases step_idle hs with ⟨hnil, -⟩ | ⟨_, _, _, hc', hd', -⟩ | ⟨_, _, _, hc', -, hstep⟩
  · cases hc.symm.trans hnil
  · cases hc.symm.trans hc'
    cases hd.symm.trans hd'
  · cases hc.symm.trans hc'
    exact hstep

/-- Settles O4: in each case of R103 the decoder answers that the word is illegal, and the step asks nothing else. -/
theorem illegalWordRefused : Obligations.IllegalWordRefused := by
  intro s w rest hs hc op hw
  suffices hill : ∃ why, decode w = .illegal why from hill.elim fun _ hd => step_illegal hs hc hd
  rcases hw with hop | ⟨hop, hz⟩ | ⟨hop, hz⟩ | ⟨hop, hz⟩ | ⟨hop, hz⟩ | ⟨hop, hpin⟩
  · exact ⟨_, decode_reservedOpcode hop⟩
  · obtain ⟨i, hi⟩ := decode_formatN hop
    exact ⟨_, hi.trans (decodeN_mustBeZero i hz)⟩
  · obtain ⟨i, -, hi⟩ := decode_formatPinWithBit hop
    exact ⟨_, hi.trans (decodePinWithBit_mustBeZero i hz)⟩
  · exact ⟨_, (decode_formatP hop).trans (decodeP_mustBeZero _ hz)⟩
  · obtain ⟨f, hf⟩ := decode_formatB hop
    exact ⟨_, hf.trans (decodeB_mustBeZero f hz)⟩
  · exact decode_pinAbove57 hop hpin

end Sys2Proof.Machine
end

section
/-! SUPPORT. The register control primitives SET_FUNCTION, PIN_SET and PIN_CLR: their words (R101, R102), the gate they
share (R201), and what each leaves of a ready state (R121, R124, R125). -/

namespace Sys2Proof

/-! ### The word of formats PF and PL, field by field (R101, R102) -/

theorem getLsbD_encodePinWithBit (op : BitVec 4) (q : BitVec 1) (pin : PinField) (i : Nat) :
    (encodePinWithBit op q pin).getLsbD i =
      if i < 6 then pin.getLsbD i else if i < 7 then q.getLsbD (i - 6)
      else if i < 12 then false else op.getLsbD (i - 12) := by
  show (op ++ 0#5 ++ q ++ pin : BitVec (4 + 5 + 1 + 6)).getLsbD i = _
  have h1 : i - 6 < 1 ↔ i < 7 := by omega
  have h5 : i - 7 < 5 ↔ i < 12 := by omega
  simp only [BitVec.getLsbD_append, BitVec.getLsbD_zero, Nat.sub_sub, h1, h5]

@[simp] theorem opcodeField_encodePinWithBit (op : BitVec 4) (q : BitVec 1) (pin : PinField) :
    opcodeField (encodePinWithBit op q pin) = op := by
  apply BitVec.eq_of_getLsbD_eq
  intro i hi
  have hpin : ¬ 12 + i < 6 := by omega
  have hq : ¬ 12 + i < 7 := by omega
  simp [opcodeField, getLsbD_encodePinWithBit, hi, hpin, hq]

/-- The bits `cmd[11:7]`, which both formats require to be zero, are zero. -/
@[simp] theorem zeroField_encodePinWithBit (op : BitVec 4) (q : BitVec 1) (pin : PinField) :
    (encodePinWithBit op q pin).extractLsb' 7 5 = 0#5 := by
  apply BitVec.eq_of_getLsbD_eq
  intro i hi
  have hpin : ¬ 7 + i < 6 := by omega
  have hzero : 7 + i < 12 := by omega
  simp [getLsbD_encodePinWithBit, hpin, hzero]

@[simp] theorem pinField_encodePinWithBit (op : BitVec 4) (q : BitVec 1) (pin : PinField) :
    pinField (encodePinWithBit op q pin) = pin := by
  apply BitVec.eq_of_getLsbD_eq
  intro i hi
  simp [pinField, getLsbD_encodePinWithBit, hi]

/-- The bit `cmd[6]`, which is `fn` in format PF and `lvl` in format PL (R101). -/
@[simp] theorem getElem_six_encodePinWithBit (op : BitVec 4) (q : BitVec 1) (pin : PinField) :
    (encodePinWithBit op q pin)[6] = q[0] := by
  rw [← BitVec.getLsbD_eq_getElem, getLsbD_encodePinWithBit]
  rfl

@[simp] theorem fnField_encodePinWithBit (op : BitVec 4) (fn : PinFunction) (pin : PinField) :
    fnField (encodePinWithBit op fn.bit pin) = fn := by
  cases fn <;> simp [fnField, PinFunction.bit]

/-! ### Decoding it (R104) -/

/-- A command whose pin operand names one of the 58 pins is well-formed (R90). -/
theorem wellFormed_of_pin_le_57 {i : Instr} {pin : PinField} (hp : i.pin? = some pin) (h : pin.toNat ≤ 57) :
    i.WellFormed := by
  simp only [Instr.WellFormed, Instr.wellFormed, hp, npins]
  exact decide_eq_true (Nat.lt_succ_of_le h)

theorem decodePinWithBit_encodePinWithBit (op : BitVec 4) (q : BitVec 1) (pin : PinField) {i : Instr}
    (hi : i.WellFormed) : decodePinWithBit (encodePinWithBit op q pin) i = .legal i := by
  rw [decodePinWithBit, if_pos (zeroField_encodePinWithBit op q pin), decodePin, if_pos hi]

theorem decode_encode_setFunction {pin : PinField} {fn : PinFunction} (hi : (Instr.setFunction pin fn).WellFormed) :
    decode (encode (.setFunction pin fn)) = .legal (.setFunction pin fn) := by
  simpa [encode, decode] using decodePinWithBit_encodePinWithBit 0x2 fn.bit pin hi

theorem decode_encode_pinSet {pin : PinField} (hi : (Instr.pinSet pin).WellFormed) :
    decode (encode (.pinSet pin)) = .legal (.pinSet pin) := by
  simpa [encode, decode] using decodePinWithBit_encodePinWithBit 0x3 1 pin hi

theorem decode_encode_pinClr {pin : PinField} (hi : (Instr.pinClr pin).WellFormed) :
    decode (encode (.pinClr pin)) = .legal (.pinClr pin) := by
  simpa [encode, decode] using decodePinWithBit_encodePinWithBit 0x3 0 pin hi

end Sys2Proof

namespace Sys2Proof.Machine

/-! ### The gate (R201) -/

theorem gateOpen_of_ne_opened {l : Life} (h : l ≠ .opened) : gateOpen l = .refuse .notOpen := by
  cases l with
  | opened => exact absurd rfl h
  | unopened => rfl
  | closed => rfl
  | aborted => rfl

/-- A legal command behind the gate of the open interface is refused `NOT_OPEN` everywhere else. -/
theorem needsOpen_of_gateOpen {i : Instr} (hi : i.WellFormed) (hg : ∀ l, gateOf l i = gateOpen l) : NeedsOpen i := by
  intro s hs hl
  rw [exec_eq_command, hg, gateOpen_of_ne_opened hl, command_refuse (by rw [hs]; rfl) hi]
  rfl

/-! ### What the primitives leave of a ready state -/

/-- `SET_FUNCTION` (R121): the field of the pin, the two bus events, and nothing else but traces and response. -/
theorem exec_setFunction_ready {s : State} (h : s.Ready) {pin : PinField} (hp : pin.toNat ≤ 57) (fn : PinFunction) :
    exec (.setFunction pin fn) s = .next { s with
      block := s.block.withFunction s.cfg pin.toNat fn
      busTrace := s.busTrace ++ functionEvents s.cfg pin.toNat fn (s.block.fselWord (fselIndex pin.toNat))
      primTrace := s.primTrace ++ [.setFunction pin.toNat fn]
      padTrace := s.padTrace ++ padChanges s.cfg s.block (s.block.withFunction s.cfg pin.toNat fn)
      response := none } := by
  obtain ⟨q, hq⟩ := performAll_setFunction (s := accept (.setFunction pin fn) s) h.cfg h.mapped
    (Nat.lt_succ_of_le hp) fn
  have hexp : expansion s.cfg s.env (.setFunction pin fn) =
      microSetFunction (accept (.setFunction pin fn) s).cfg pin.toNat fn := rfl
  rw [exec_ready h (wellFormed_of_pin_le_57 rfl hp) (by simp), hexp, runToEnd, hq]
  simp only [andThen_next, finish, accept, ← h.idle]

/-- `SET_LEVEL` (R123): in a ready state it is the one level write. -/
theorem exec_setLevelCommand_ready {s : State} (h : s.Ready) {pin : PinField} (hp : pin.toNat ≤ 57) (l : Level) :
    exec (setLevelCommand pin l) s = .next { s with
      block := s.block.withLatch pin.toNat l
      busTrace := s.busTrace ++ [levelEvent s.cfg pin.toNat l]
      primTrace := s.primTrace ++ [.setLevel pin.toNat l]
      padTrace := s.padTrace ++ padChanges s.cfg s.block (s.block.withLatch pin.toNat l)
      response := none } := by
  have hlt : pin.toNat < 58 := Nat.lt_succ_of_le hp
  have hi : (setLevelCommand pin l).WellFormed := wellFormed_of_pin_le_57 (by cases l <;> rfl) hp
  have ho : setLevelCommand pin l ≠ .openIface := by cases l <;> simp [setLevelCommand]
  have hexp : expansion s.cfg s.env (setLevelCommand pin l) =
      [(none, PrimEvent.setLevel pin.toNat l)].map fun e => serialMicro s.cfg e.1 e.2 := by cases l <;> rfl
  rw [exec_ready h hi ho, hexp, runToEnd_serial h _ _ (by simp [isSerial, hlt])]
  exact congrArg Host.Outcome.next (afterPrims_setLevel h.cfg hlt l)

/-! ### The obligations -/

/-- Settles O31: the read-modify-write of `exec_setFunction_ready`, the word and the code written out. -/
theorem setFunctionWritesField : Obligations.SetFunctionWritesField := by
  intro p f hp
  have hi : (Instr.setFunction p f).WellFormed := wellFormed_of_pin_le_57 rfl hp
  refine ⟨?_, needsOpen_of_gateOpen hi fun _ => rfl, fun s h => ?_⟩
  · exact (congrArg decode (by cases f <;> rfl)).trans (decode_encode_setFunction hi)
  · rw [exec_setFunction_ready h hp]
    cases f <;> rfl

/-- Settles O33: `PIN_SET` is the level write to High. -/
theorem pinSetSetsOneLatch : Obligations.PinSetSetsOneLatch := by
  intro p hp
  have hi : (Instr.pinSet p).WellFormed := wellFormed_of_pin_le_57 rfl hp
  exact ⟨decode_encode_pinSet hi, needsOpen_of_gateOpen hi fun _ => rfl,
    fun s h => exec_setLevelCommand_ready h hp .high⟩

/-- Settles O34: `PIN_CLR` is the level write to Low. -/
theorem pinClrClearsOneLatch : Obligations.PinClrClearsOneLatch := by
  intro p hp
  have hi : (Instr.pinClr p).WellFormed := wellFormed_of_pin_le_57 rfl hp
  exact ⟨decode_encode_pinClr hi, needsOpen_of_gateOpen hi fun _ => rfl,
    fun s h => exec_setLevelCommand_ready h hp .low⟩

end Sys2Proof.Machine
end

section
/-! SUPPORT. The shift-register byte writer SR_WRITE: the words of format B (R101, R102), commands made of level writes
and delays only, and the listing of R160. -/

namespace Sys2Proof

/-! ### The word of format B, field by field (R101, R102) -/

theorem getLsbD_encodeB (op : BitVec 4) (byte : Byte) (i : Nat) :
    (encodeB op byte).getLsbD i =
      if i < 8 then byte.getLsbD i else if i < 12 then false else op.getLsbD (i - 12) := by
  show (op ++ 0#4 ++ byte : BitVec (4 + 4 + 8)).getLsbD i = _
  have h4 : i - 8 < 4 ↔ i < 12 := by omega
  simp only [BitVec.getLsbD_append, BitVec.getLsbD_zero, Nat.sub_sub, h4]

@[simp] theorem opcodeField_encodeB (op : BitVec 4) (byte : Byte) : opcodeField (encodeB op byte) = op := by
  apply BitVec.eq_of_getLsbD_eq
  intro i hi
  have hbyte : ¬ 12 + i < 8 := by omega
  simp [opcodeField, getLsbD_encodeB, hi, hbyte]

/-- The bits `cmd[11:8]`, which the format requires to be zero, are zero. -/
@[simp] theorem zeroField_encodeB (op : BitVec 4) (byte : Byte) : (encodeB op byte).extractLsb' 8 4 = 0#4 := by
  apply BitVec.eq_of_getLsbD_eq
  intro i hi
  have hbyte : ¬ 8 + i < 8 := by omega
  have hzero : 8 + i < 12 := by omega
  simp [getLsbD_encodeB, hbyte, hzero]

@[simp] theorem byteField_encodeB (op : BitVec 4) (byte : Byte) : byteField (encodeB op byte) = byte := by
  apply BitVec.eq_of_getLsbD_eq
  intro i hi
  simp [byteField, getLsbD_encodeB, hi]

theorem decodeB_encodeB (op : BitVec 4) (byte : Byte) (f : Byte → Instr) :
    decodeB (encodeB op byte) f = .legal (f byte) := by
  rw [decodeB, if_pos (zeroField_encodeB op byte), byteField_encodeB]

theorem decode_encode_srWrite (byte : Byte) : decode (encode (.srWrite byte)) = .legal (.srWrite byte) := by
  simpa [encode, decode] using decodeB_encodeB 0x8 byte .srWrite

theorem levelOfBit_eq_ite (b : Bool) : Level.ofBit b = if b then .high else .low := by
  cases b <;> rfl

end Sys2Proof

namespace Sys2Proof.Machine

/-! ### Micro-operations that are level writes and delays -/

/-- The micro-operations `ms` are those of the level writes and delays `ps`, one for one and in order (R110). -/
def SerialOf (c : Config) (ms : List Micro) (ps : List PrimEvent) : Prop :=
  ∃ es : List (Option Nat × PrimEvent), (∀ e ∈ es, isSerial e.2 = true) ∧
    ms = es.map (fun e => serialMicro c e.1 e.2) ∧ ps = es.map Prod.snd

theorem serialOf_nil (c : Config) : SerialOf c [] [] := ⟨[], by simp, rfl, rfl⟩

theorem SerialOf.append {c : Config} {ms ns : List Micro} {ps qs : List PrimEvent} (h : SerialOf c ms ps)
    (k : SerialOf c ns qs) : SerialOf c (ms ++ ns) (ps ++ qs) := by
  obtain ⟨es, hes, rfl, rfl⟩ := h
  obtain ⟨fs, hfs, rfl, rfl⟩ := k
  exact ⟨es ++ fs, List.forall_mem_append.mpr ⟨hes, hfs⟩, List.map_append.symm, List.map_append.symm⟩

theorem SerialOf.flatMap {α : Type} {c : Config} {f : α → List Micro} {g : α → List PrimEvent}
    (h : ∀ x, SerialOf c (f x) (g x)) (xs : List α) : SerialOf c (xs.flatMap f) (xs.flatMap g) := by
  induction xs with
  | nil => exact serialOf_nil c
  | cons x xs ih => simpa only [List.flatMap_cons] using (h x).append ih

theorem serialOf_microSetLevel (c : Config) (i : Option Nat) {p : Nat} (hp : p < 58) (l : Level) :
    SerialOf c [microSetLevel c i p l] [.setLevel p l] :=
  ⟨[(i, .setLevel p l)], by simp [isSerial, hp], rfl, rfl⟩

theorem serialOf_microDelay (c : Config) (i : Option Nat) (n : Nat) :
    SerialOf c (microDelay i n) (if n = 0 then [] else [.delay n]) := by
  unfold microDelay
  split
  · exact serialOf_nil c
  · exact ⟨[(i, .delay n)], by simp [isSerial], rfl, rfl⟩

/-- In a ready state a legal command made of level writes and delays leaves the state `afterPrims` says (R5, R198). -/
theorem exec_serialOf {s : State} (h : s.Ready) {i : Instr} (hi : i.WellFormed) (ho : i ≠ .openIface)
    {ps : List PrimEvent} (hps : SerialOf s.cfg (expansion s.cfg s.env i) ps) :
    exec i s = .next (s.afterPrims ps) := by
  obtain ⟨es, hes, hms, rfl⟩ := hps
  rw [exec_ready h hi ho, hms, runToEnd_serial h i es hes]

theorem lt_58_of_controlled {c : Config} (h : c.Admissible) {p : Nat} (hp : p ∈ c.controlledPins) : p < 58 :=
  (controlled_lt h hp).trans (by decide)

/-! ### The listing of SR_WRITE (R160) -/

/-- `SET_LEVEL(p, l) ; Delay(e)`, the delay present where `e > 0`. -/
def srEdgePrims (c : Config) (p : Nat) (l : Level) : List PrimEvent :=
  .setLevel p l :: if c.srEdgeDelay = 0 then [] else [.delay c.srEdgeDelay]

/-- Iteration `i` of the loop. -/
def srBitPrims (c : Config) (byte : Byte) (i : Nat) : List PrimEvent :=
  srEdgePrims c c.pinSrData (bitLevel byte i) ++ srEdgePrims c c.pinSrShclk .low ++
  srEdgePrims c c.pinSrShclk .high

/-- The whole listing. -/
def srWritePrims (c : Config) (byte : Byte) : List PrimEvent :=
  (List.range 8).flatMap (srBitPrims c byte) ++ srEdgePrims c c.pinSrLatch .low ++ srEdgePrims c c.pinSrLatch .high

theorem serialOf_srEdge (c : Config) (i : Nat) {p : Nat} (hp : p < 58) (l : Level) :
    SerialOf c (srEdge c i p l) (srEdgePrims c p l) :=
  (serialOf_microSetLevel c (some i) hp l).append (serialOf_microDelay c (some i) c.srEdgeDelay)

theorem serialOf_srBit {c : Config} (h : c.Admissible) (byte : Byte) (i : Nat) :
    SerialOf c (srBit c byte i) (srBitPrims c byte i) := by
  have hdata : c.pinSrData < 58 := lt_58_of_controlled h (by simp [Config.controlledPins])
  have hclock : c.pinSrShclk < 58 := lt_58_of_controlled h (by simp [Config.controlledPins])
  exact ((serialOf_srEdge c i hdata _).append (serialOf_srEdge c i hclock .low)).append
    (serialOf_srEdge c i hclock .high)

theorem serialOf_expandSrWrite {c : Config} (h : c.Admissible) (byte : Byte) :
    SerialOf c (expandSrWrite c byte) (srWritePrims c byte) := by
  have hlatch : c.pinSrLatch < 58 := lt_58_of_controlled h (by simp [Config.controlledPins])
  exact ((SerialOf.flatMap (serialOf_srBit h byte) (List.range 8)).append (serialOf_srEdge c 8 hlatch .low)).append
    (serialOf_srEdge c 8 hlatch .high)

/-- `SR_WRITE` in a ready state: the listing's level writes and delays, and nothing else. -/
theorem exec_srWrite_ready {s : State} (h : s.Ready) (byte : Byte) :
    exec (.srWrite byte) s = .next (s.afterPrims (srWritePrims s.cfg byte)) :=
  exec_serialOf h rfl (by simp) (serialOf_expandSrWrite h.cfg byte)

/-- Settles O46: the loop of `exec_srWrite_ready` written out, the level of a bit as the listing gives it. -/
theorem srWriteFollowsListing : Obligations.SrWriteFollowsListing := by
  intro byte
  refine ⟨decode_encode_srWrite byte, needsOpen_of_gateOpen rfl fun _ => rfl, fun s h => ?_⟩
  rw [exec_srWrite_ready h]
  simp only [srWritePrims, srBitPrims, srEdgePrims, bitLevel, levelOfBit_eq_ite, List.range_succ, List.range_zero,
    List.flatMap_append, List.flatMap_cons, List.flatMap_nil, List.nil_append, List.append_nil]

end Sys2Proof.Machine
end

section
/-! SUPPORT. The 2-wire display writer DISP_START, DISP_BYTE and DISP_CMD: their words (R101), the listings of R171 and
R173, and their composition (R175). -/

namespace Sys2Proof

theorem decode_encode_dispStart : decode (encode .dispStart) = .legal .dispStart := by decide

theorem decode_encode_dispByte (byte : Byte) : decode (encode (.dispByte byte)) = .legal (.dispByte byte) := by
  simpa [encode, decode] using decodeB_encodeB 0xA byte .dispByte

theorem decode_encode_dispCmd (byte : Byte) : decode (encode (.dispCmd byte)) = .legal (.dispCmd byte) := by
  simpa [encode, decode] using decodeB_encodeB 0xB byte .dispCmd

end Sys2Proof

namespace Sys2Proof.Machine

/-- What a ready state is asked for, no level write or delay changes. -/
theorem State.Ready.afterPrims {s : State} (h : s.Ready) (ps : List PrimEvent) : (s.afterPrims ps).Ready :=
  ⟨h.opened, h.mapped, h.idle, h.cfg⟩

/-! ### The listings (R171, R173, R175) -/

/-- `SET_LEVEL(p, l) ; Delay(1)`. -/
def dispEdgePrims (p : Nat) (l : Level) : List PrimEvent := [.setLevel p l, .delay 1]

/-- The listing of `DISP_START`, with no delay after its first write. -/
def dispStartPrims (c : Config) : List PrimEvent :=
  [.setLevel c.pinDispClk .high] ++ dispEdgePrims c.pinDispData .high ++ dispEdgePrims c.pinDispData .low ++
  dispEdgePrims c.pinDispClk .low

/-- One bit on the data line, clocked Low and High. -/
def dispClockedPrims (c : Config) (l : Level) : List PrimEvent :=
  dispEdgePrims c.pinDispClk .low ++ dispEdgePrims c.pinDispData l ++ dispEdgePrims c.pinDispClk .high

/-- The listing of `DISP_BYTE byte`. -/
def dispBytePrims (c : Config) (byte : Byte) : List PrimEvent :=
  (List.range 8).flatMap (fun i => dispClockedPrims c (bitLevel byte i)) ++ dispClockedPrims c .high

/-- The listing of `DISP_CMD byte`. -/
def dispCmdPrims (c : Config) (byte : Byte) : List PrimEvent :=
  dispStartPrims c ++ dispBytePrims c byte ++ dispStartPrims c

/-! ### The expansions are the listings -/

theorem pinDispClk_lt_58 {c : Config} (h : c.Admissible) : c.pinDispClk < 58 :=
  lt_58_of_controlled h (by simp [Config.controlledPins])

theorem pinDispData_lt_58 {c : Config} (h : c.Admissible) : c.pinDispData < 58 :=
  lt_58_of_controlled h (by simp [Config.controlledPins])

theorem serialOf_dispEdge (c : Config) (i : Option Nat) {p : Nat} (hp : p < 58) (l : Level) :
    SerialOf c (dispEdge c i p l) (dispEdgePrims p l) :=
  (serialOf_microSetLevel c i hp l).append (serialOf_microDelay c i 1)

theorem serialOf_expandDispStart {c : Config} (h : c.Admissible) :
    SerialOf c (expandDispStart c) (dispStartPrims c) := by
  have hclock := pinDispClk_lt_58 h
  have hdata := pinDispData_lt_58 h
  exact (((serialOf_microSetLevel c none hclock .high).append (serialOf_dispEdge c none hdata .high)).append
    (serialOf_dispEdge c none hdata .low)).append (serialOf_dispEdge c none hclock .low)

theorem serialOf_dispClocked {c : Config} (h : c.Admissible) (i : Nat) (l : Level) :
    SerialOf c (dispClocked c i l) (dispClockedPrims c l) := by
  have hclock := pinDispClk_lt_58 h
  exact ((serialOf_dispEdge c (some i) hclock .low).append
    (serialOf_dispEdge c (some i) (pinDispData_lt_58 h) l)).append (serialOf_dispEdge c (some i) hclock .high)

theorem serialOf_expandDispByte {c : Config} (h : c.Admissible) (byte : Byte) :
    SerialOf c (expandDispByte c byte) (dispBytePrims c byte) :=
  (SerialOf.flatMap (fun i => serialOf_dispClocked h i (bitLevel byte i)) (List.range 8)).append
    (serialOf_dispClocked h 8 .high)

theorem serialOf_expandDispCmd {c : Config} (h : c.Admissible) (byte : Byte) :
    SerialOf c (expandDispCmd c byte) (dispCmdPrims c byte) :=
  ((serialOf_expandDispStart h).append (serialOf_expandDispByte h byte)).append (serialOf_expandDispStart h)

/-! ### How many micro-operations they are (R110) -/

@[simp] theorem length_expandDispStart (c : Config) : (expandDispStart c).length = 7 := rfl

@[simp] theorem length_dispClocked (c : Config) (i : Nat) (l : Level) : (dispClocked c i l).length = 6 := rfl

@[simp] theorem length_expandDispByte (c : Config) (byte : Byte) : (expandDispByte c byte).length = 54 := by
  simp [expandDispByte]

@[simp] theorem length_expandDispCmd (c : Config) (byte : Byte) : (expandDispCmd c byte).length = 68 := by
  simp [expandDispCmd]

/-! ### The commands in a ready state -/

theorem exec_dispStart_ready {s : State} (h : s.Ready) :
    exec .dispStart s = .next (s.afterPrims (dispStartPrims s.cfg)) :=
  exec_serialOf h rfl (by simp) (serialOf_expandDispStart h.cfg)

theorem exec_dispByte_ready {s : State} (h : s.Ready) (byte : Byte) :
    exec (.dispByte byte) s = .next (s.afterPrims (dispBytePrims s.cfg byte)) :=
  exec_serialOf h rfl (by simp) (serialOf_expandDispByte h.cfg byte)

theorem exec_dispCmd_ready {s : State} (h : s.Ready) (byte : Byte) :
    exec (.dispCmd byte) s = .next (s.afterPrims (dispCmdPrims s.cfg byte)) :=
  exec_serialOf h rfl (by simp) (serialOf_expandDispCmd h.cfg byte)

/-! ### The obligations -/

/-- Settles O51: the listing of `exec_dispStart_ready` is the one the statement writes out. -/
theorem dispStartFollowsListing : Obligations.DispStartFollowsListing :=
  ⟨decode_encode_dispStart, needsOpen_of_gateOpen rfl fun _ => rfl, fun _ h => exec_dispStart_ready h⟩

/-- Settles O53: the loop of `exec_dispByte_ready` written out, the level of a bit as the listing gives it. -/
theorem dispByteFollowsListing : Obligations.DispByteFollowsListing := by
  intro byte
  refine ⟨decode_encode_dispByte byte, needsOpen_of_gateOpen rfl fun _ => rfl, fun s h => ?_⟩
  rw [exec_dispByte_ready h]
  simp only [dispBytePrims, dispClockedPrims, dispEdgePrims, bitLevel, levelOfBit_eq_ite, List.range_succ,
    List.range_zero, List.flatMap_cons, List.flatMap_nil, List.nil_append, List.append_nil, List.cons_append]

/-- Settles O55: each of the three commands leaves a ready state with the configuration it began with, so the next one
performs its own listing there, and the listing of `DISP_CMD` is the three in a row. -/
theorem dispCmdIsStartByteStart : Obligations.DispCmdIsStartByteStart := by
  intro byte
  refine ⟨decode_encode_dispCmd byte, needsOpen_of_gateOpen rfl fun _ => rfl,
    fun c _ => length_expandDispCmd c byte, fun s h => ?_⟩
  have ht := h.afterPrims (dispStartPrims s.cfg)
  have hu := ht.afterPrims (dispBytePrims s.cfg byte)
  refine ⟨_, _, _, exec_dispStart_ready h, exec_dispByte_ready ht byte, exec_dispStart_ready hu, ?_⟩
  rw [exec_dispCmd_ready h, dispCmdPrims, afterPrims_append, afterPrims_append]
  rfl

end Sys2Proof.Machine
end

section
/-! SUPPORT. The errors of spec/60_exceptions.md: what a performed command can put on the response port, which
micro-operation records a fatal cause, and that the micro-operations of an open interface are always answered by a next
state (R198, R200). -/

namespace Sys2Proof.Machine

/-! ### Inversion and induction over micro-operations -/

/-- A micro-operation performed is the operation proper, the completion of its primitive and the index moved on. -/
theorem perform_next {m : Micro} {s t : State} (h : perform m s = .next t) :
    ∃ u v, doOp m.op (setBitIndex m.bit s) = .next u ∧ complete m.completes u = .next v ∧ t = advance v := by
  obtain ⟨u, hu, h⟩ := andThen_eq_next h
  obtain ⟨v, hv, h⟩ := andThen_eq_next h
  cases h
  exact ⟨u, v, hu, hv, rfl⟩

theorem runToEnd_next {ms : List Micro} {s t : State} (h : runToEnd ms s = .next t) :
    ∃ u, performAll ms s = .next u ∧ t = finish u := by
  obtain ⟨u, hu, h⟩ := andThen_eq_next h
  cases h
  exact ⟨u, hu, rfl⟩

/-- What each micro-operation of a list keeps, the whole list keeps. -/
theorem performAll_keeps {P : State → Prop} {ms : List Micro}
    (hstep : ∀ m ∈ ms, ∀ s t, P s → perform m s = .next t → P t) {s t : State} (hs : P s)
    (h : performAll ms s = .next t) : P t := by
  induction ms generalizing s with
  | nil => cases h; exact hs
  | cons m ms ih =>
    obtain ⟨hm, hms⟩ := List.forall_mem_cons.mp hstep
    obtain ⟨u, hu, h⟩ := andThen_eq_next h
    exact ih hms (hm s u hs hu) h

/-! ### What a performed micro-operation responds (R107) -/

/-- Only `Map` and `Abort` respond. -/
theorem doOp_response {op : MicroOp} {s t : State} (h : doOp op s = .next t) :
    t.response = s.response ∨ t.response = some .ok ∨
    ∃ cause, op = .abort cause ∧ t.response = some (.fatal cause) := by
  cases op with
  | regRead w => obtain ⟨-, -, -, hr, -⟩ := doOp_access rfl h; exact .inl hr
  | regWrite w v => obtain ⟨-, -, -, hr, -⟩ := doOp_access rfl h; exact .inl hr
  | delay n => obtain ⟨-, -, -, hr, -⟩ := doOp_access rfl h; exact .inl hr
  | map => cases h; exact .inr (.inl rfl)
  | unmap => cases h; exact .inl rfl
  | abort cause => cases h; exact .inr (.inr ⟨cause, rfl, rfl⟩)

/-- Only `GET_LEVEL` responds on completion, with a level. -/
theorem complete_response {c : Option Completes} {s t : State} (h : complete c s = .next t) :
    t.response = s.response ∨ ∃ l, t.response = some (.level l) := by
  cases c with
  | none => cases h; exact .inl rfl
  | some c =>
    cases c with
    | setFunction p f => cases h; exact .inl rfl
    | setLevel p l => cases h; exact .inl rfl
    | getLevel p =>
      simp only [complete] at h
      split at h
      · cases h; exact .inr ⟨_, rfl⟩
      · cases h

theorem perform_response {m : Micro} {s t : State} (h : perform m s = .next t) :
    t.response = s.response ∨ t.response = some .ok ∨ (∃ l, t.response = some (.level l)) ∨
    ∃ cause, m.op = .abort cause ∧ t.response = some (.fatal cause) := by
  obtain ⟨u, v, hu, hv, rfl⟩ := perform_next h
  rw [advance_response]
  rcases complete_response hv with hvu | hlevel
  · rw [hvu]
    rcases doOp_response hu with hsame | hok | hfatal
    · exact .inl hsame
    · exact .inr (.inl hok)
    · exact .inr (.inr (.inr hfatal))
  · exact .inr (.inr (.inl hlevel))

/-! ### Refusals come from the gate only (R200) -/

/-- The response port presents no refusal. -/
def State.NoRefusal (s : State) : Prop := ∀ why, s.response ≠ some (.refused why)

/-- No micro-operation refuses. -/
theorem perform_noRefusal {m : Micro} {s t : State} (hs : s.NoRefusal) (h : perform m s = .next t) :
    t.NoRefusal := by
  intro why
  rcases perform_response h with hr | hr | ⟨l, hr⟩ | ⟨cause, -, hr⟩
  · rw [hr]; exact hs why
  · simp [hr]
  · simp [hr]
  · simp [hr]

theorem runToEnd_accept_noRefusal {i : Instr} {ms : List Micro} {s t : State}
    (h : runToEnd ms (accept i s) = .next t) : t.NoRefusal := by
  obtain ⟨u, hu, rfl⟩ := runToEnd_next h
  have haccept : (accept i s).NoRefusal := fun why => by simp
  show u.NoRefusal
  exact performAll_keeps (fun _ _ _ _ => perform_noRefusal) haccept hu

/-- Settles O21: a command that is performed responds with no refusal, and a no-op with nothing, so the state that
carries one is what `refuse` made of the state before. -/
theorem refusalChangesNothing : Obligations.RefusalChangesNothing := by
  intro s t i why hs h hr
  rw [exec_eq_command] at h
  rcases command_next h with ⟨hbusy, -⟩ | ⟨-, -, rfl⟩ | ⟨-, -, why', -, rfl⟩ | ⟨-, -, -, rfl⟩ | ⟨-, -, -, hrun⟩
  · exact absurd hs hbusy
  · cases hr; rfl
  · cases hr; rfl
  · cases hr
  · exact absurd hr (runToEnd_accept_noRefusal hrun why)

/-! ### Fatal causes come from `Abort` only (R194, R198) -/

theorem doOp_fatalCause {op : MicroOp} (ho : ∀ cause, op ≠ .abort cause) {s t : State} (h : doOp op s = .next t) :
    t.fatalCause = s.fatalCause := by
  cases op with
  | regRead w => obtain ⟨-, -, hf, -⟩ := doOp_access rfl h; exact hf
  | regWrite w v => obtain ⟨-, -, hf, -⟩ := doOp_access rfl h; exact hf
  | delay n => obtain ⟨-, -, hf, -⟩ := doOp_access rfl h; exact hf
  | map => cases h; rfl
  | unmap => cases h; rfl
  | abort cause => exact absurd rfl (ho cause)

theorem perform_fatalCause {m : Micro} (hm : ∀ cause, m.op ≠ .abort cause) {s t : State}
    (h : perform m s = .next t) : t.fatalCause = s.fatalCause := by
  obtain ⟨u, v, hu, hv, rfl⟩ := perform_next h
  obtain ⟨ps, r, rfl⟩ := complete_next hv
  simpa using doOp_fatalCause hm hu

/-- `t` records the fatal cause `s` does, if any, and its response port presents none. -/
def NoNewFatal (s t : State) : Prop := t.fatalCause = s.fatalCause ∧ ∀ cause, t.response ≠ some (.fatal cause)

theorem perform_noNewFatal {m : Micro} (hm : ∀ cause, m.op ≠ .abort cause) {s t u : State} (ht : NoNewFatal s t)
    (h : perform m t = .next u) : NoNewFatal s u := by
  obtain ⟨hcause, hresponse⟩ := ht
  refine ⟨(perform_fatalCause hm h).trans hcause, fun cause => ?_⟩
  rcases perform_response h with hr | hr | ⟨l, hr⟩ | ⟨cause', habort, -⟩
  · rw [hr]; exact hresponse cause
  · simp [hr]
  · simp [hr]
  · exact absurd habort (hm cause')

theorem AccessOnly.ne_abort {ms : List Micro} (h : AccessOnly ms) {m : Micro} (hm : m ∈ ms) (cause : FatalCause) :
    m.op ≠ .abort cause := by
  intro habort
  have haccess := h m hm
  rw [habort] at haccess
  cases haccess

/-- Only the expansion of `OPEN` holds an `Abort` (R110). -/
theorem expansion_ne_abort (c : Config) (e : Env) {i : Instr} (ho : i ≠ .openIface) :
    ∀ m ∈ expansion c e i, ∀ cause, m.op ≠ .abort cause := by
  intro m hm cause
  by_cases hc : i = .closeIface
  · subst hc
    obtain ⟨ms, hms, heq⟩ := expandClose_eq c
    rw [expansion, heq, List.mem_append, List.mem_singleton] at hm
    rcases hm with hm | rfl
    · exact hms.ne_abort hm cause
    · simp
  · exact (accessOnly_expansion c e ho hc).ne_abort hm cause

/-- A command without an `Abort` records and responds no fatal cause. -/
theorem runToEnd_accept_noNewFatal {i : Instr} {ms : List Micro} (hms : ∀ m ∈ ms, ∀ cause, m.op ≠ .abort cause)
    {s t : State} (h : runToEnd ms (accept i s) = .next t) : NoNewFatal s t := by
  obtain ⟨u, hu, rfl⟩ := runToEnd_next h
  have haccept : NoNewFatal s (accept i s) := ⟨rfl, fun cause => by simp⟩
  show NoNewFatal s u
  exact performAll_keeps (fun m hm _ _ => perform_noNewFatal (hms m hm)) haccept hu

/-! ### Micro-operations that are always answered by a next state -/

/-- In every state with configuration `c` and a live mapping the micro-operations `ms` are performed to the last one,
and the mapping stays. -/
def Performable (c : Config) (ms : List Micro) : Prop :=
  ∀ s : State, s.cfg = c → s.mapped = true → ∃ t, performAll ms s = .next t ∧ t.mapped = true

theorem performable_nil (c : Config) : Performable c [] := fun s _ hm => ⟨s, rfl, hm⟩

theorem Performable.append {c : Config} {ms ns : List Micro} (h : Performable c ms) (k : Performable c ns) :
    Performable c (ms ++ ns) := by
  intro s hc hm
  obtain ⟨t, ht, htm⟩ := h s hc hm
  obtain ⟨u, hu, hum⟩ := k t ((performAll_moves ht).cfg.trans hc) htm
  exact ⟨u, by rw [performAll_append, ht, andThen_next, hu], hum⟩

theorem performable_flatMap {α : Type} {c : Config} {f : α → List Micro} {xs : List α}
    (h : ∀ x ∈ xs, Performable c (f x)) : Performable c (xs.flatMap f) := by
  induction xs with
  | nil => exact performable_nil c
  | cons x xs ih =>
    obtain ⟨hx, hxs⟩ := List.forall_mem_cons.mp h
    simpa only [List.flatMap_cons] using hx.append (ih hxs)

theorem performable_regWrite {c : Config} {w : Nat} {r : Reg} (hr : regOf c w = some r) (v : Word) (i : Option Nat) :
    Performable c [⟨.regWrite w (.word v), i, none⟩] := by
  rintro s rfl hm
  have hd : doOp (.regWrite w (.word v)) (setBitIndex i s) = _ := regWrite_listed (s := setBitIndex i s) v hm hr
  rw [performAll_cons, perform, hd]
  exact ⟨_, rfl, hm⟩

theorem performable_microGetLevel {c : Config} (h : c.Admissible) {p : Nat} (hp : p < 58) :
    Performable c [microGetLevel c p] := by
  rintro s rfl hm
  have hw : wordIndex p < 2 := by simp only [wordIndex]; omega
  have hd : doOp (microGetLevel s.cfg p).op (setBitIndex none s) = _ :=
    regRead_listed (s := setBitIndex none s) hm (regOf_lev h hw)
  rw [performAll_cons, perform, show (microGetLevel s.cfg p).bit = none from rfl, hd]
  exact ⟨_, rfl, hm⟩

theorem performable_microSetFunction {c : Config} (h : c.Admissible) {p : Nat} (hp : p < 58) (f : PinFunction) :
    Performable c (microSetFunction c p f) := by
  rintro s rfl hm
  obtain ⟨q, hq⟩ := performAll_setFunction h hm hp f
  exact ⟨_, hq, hm⟩

theorem SerialOf.performable {c : Config} (h : c.Admissible) {ms : List Micro} {ps : List PrimEvent}
    (hms : SerialOf c ms ps) : Performable c ms := by
  rintro s rfl hm
  obtain ⟨es, hes, rfl, -⟩ := hms
  obtain ⟨q, hq⟩ := performAll_serial h hm es hes
  exact ⟨_, hq, hm⟩

theorem performable_expandInitPins {c : Config} (h : c.Admissible) : Performable c (expandInitPins c) :=
  performable_flatMap fun _ hp => performable_microSetFunction h (lt_58_of_controlled h hp) .output

/-- The six level writes of `CLOSE` (R150). -/
theorem serialOf_safeIdle {c : Config} (h : c.Admissible) :
    SerialOf c (c.safeIdle.map fun pl => microSetLevel c none pl.1 pl.2)
      (c.safeIdle.map fun pl => .setLevel pl.1 pl.2) := by
  refine ⟨c.safeIdle.map fun pl => (none, .setLevel pl.1 pl.2), List.forall_mem_map.mpr fun pl hpl => ?_,
    by simp [serialMicro], by simp⟩
  have hpin : pl.1 ∈ c.controlledPins := List.mem_map_of_mem (f := Prod.fst) hpl
  simpa [isSerial] using lt_58_of_controlled h hpin

/-- All of `CLOSE` but its `Unmap` needs no more than the live mapping (R150). -/
theorem expandClose_eq_performable {c : Config} (h : c.Admissible) :
    ∃ ms, Performable c ms ∧ expandClose c = ms ++ [⟨.unmap, none, none⟩] :=
  ⟨_, ((serialOf_safeIdle h).performable h).append
      ((performable_regWrite (regOf_clr h (n := 0) (by decide)) 0 none).append
        (performable_regWrite (regOf_clr h (n := 1) (by decide)) 0 none)),
    by simp [expandClose]⟩

/-- Every legal command but `OPEN` and `CLOSE` needs no more than the live mapping (R120). -/
theorem performable_expansion {c : Config} (h : c.Admissible) (e : Env) {i : Instr} (hi : i.WellFormed)
    (ho : i ≠ .openIface) (hc : i ≠ .closeIface) : Performable c (expansion c e i) := by
  have hpin : ∀ {pin : PinField}, i.pin? = some pin → pin.toNat < 58 := fun hp =>
    Nat.lt_succ_of_le (pin_le_57_of_wellFormed hi hp)
  cases i with
  | openIface => exact absurd rfl ho
  | closeIface => exact absurd rfl hc
  | setFunction pin fn => exact performable_microSetFunction h (hpin rfl) fn
  | pinSet pin => exact (serialOf_microSetLevel c none (hpin rfl) .high).performable h
  | pinClr pin => exact (serialOf_microSetLevel c none (hpin rfl) .low).performable h
  | getLevel pin => exact performable_microGetLevel h (hpin rfl)
  | initPins => exact performable_expandInitPins h
  | srWrite byte => exact (serialOf_expandSrWrite h byte).performable h
  | dispStart => exact (serialOf_expandDispStart h).performable h
  | dispByte byte => exact (serialOf_expandDispByte h byte).performable h
  | dispCmd byte => exact (serialOf_expandDispCmd h byte).performable h

/-- While the mapping is live every legal command but `OPEN` is performed to its end. -/
theorem performAll_expansion_completes {s : State} (h : s.cfg.Admissible) (hm : s.mapped = true) (e : Env) {i : Instr}
    (hi : i.WellFormed) (ho : i ≠ .openIface) : ∃ t, performAll (expansion s.cfg e i) s = .next t := by
  by_cases hc : i = .closeIface
  · subst hc
    obtain ⟨ms, hms, heq⟩ := expandClose_eq_performable h
    obtain ⟨t, ht, -⟩ := hms s rfl hm
    exact ⟨_, by rw [expansion, heq, performAll_append, ht]; rfl⟩
  · obtain ⟨t, ht, -⟩ := performable_expansion h e hi ho hc s rfl hm
    exact ⟨t, ht⟩

/-- Settles O30: the expansion is performed to its end, refuses nothing and holds no `Abort`. -/
theorem noRuntimeErrors : Obligations.NoRuntimeErrors := by
  intro s i h hi ho
  obtain ⟨u, hu⟩ := performAll_expansion_completes (s := accept i s) h.cfg h.mapped s.env hi ho
  have hrun : runToEnd (expansion s.cfg s.env i) (accept i s) = .next (finish u) := congrArg (andThen · _) hu
  obtain ⟨hmoves, hidle⟩ := runToEnd_moves hrun
  obtain ⟨hcause, hfatal⟩ := runToEnd_accept_noNewFatal (expansion_ne_abort s.cfg s.env ho) hrun
  exact ⟨finish u, (exec_ready h hi ho).trans hrun, hidle, hmoves.mark, hcause,
    runToEnd_accept_noRefusal hrun, hfatal⟩

end Sys2Proof.Machine
end

section
/-! SUPPORT. The decoder and the encoder are inverse to each other (R101, R104): the words of formats N and P, every
word put together again from its fields, and the rows of spec/opcode_table.json. -/

namespace Sys2Proof

/-! ### The word of format P, field by field (R101, R102) -/

theorem getLsbD_encodeP (op : BitVec 4) (pin : PinField) (i : Nat) :
    (encodeP op pin).getLsbD i =
      if i < 6 then pin.getLsbD i else if i < 12 then false else op.getLsbD (i - 12) := by
  show (op ++ 0#6 ++ pin : BitVec (4 + 6 + 6)).getLsbD i = _
  have h6 : i - 6 < 6 ↔ i < 12 := by omega
  simp only [BitVec.getLsbD_append, BitVec.getLsbD_zero, Nat.sub_sub, h6]

@[simp] theorem opcodeField_encodeP (op : BitVec 4) (pin : PinField) : opcodeField (encodeP op pin) = op := by
  apply BitVec.eq_of_getLsbD_eq
  intro i hi
  have hpin : ¬ 12 + i < 6 := by omega
  simp [opcodeField, getLsbD_encodeP, hi, hpin]

/-- The bits `cmd[11:6]`, which the format requires to be zero, are zero. -/
@[simp] theorem zeroField_encodeP (op : BitVec 4) (pin : PinField) : (encodeP op pin).extractLsb' 6 6 = 0#6 := by
  apply BitVec.eq_of_getLsbD_eq
  intro i hi
  have hpin : ¬ 6 + i < 6 := by omega
  have hzero : 6 + i < 12 := by omega
  simp [getLsbD_encodeP, hpin, hzero]

@[simp] theorem pinField_encodeP (op : BitVec 4) (pin : PinField) : pinField (encodeP op pin) = pin := by
  apply BitVec.eq_of_getLsbD_eq
  intro i hi
  simp [pinField, getLsbD_encodeP, hi]

theorem decodeP_encodeP (op : BitVec 4) (pin : PinField) {i : Instr} (hi : i.WellFormed) :
    decodeP (encodeP op pin) i = .legal i := by
  rw [decodeP, if_pos (zeroField_encodeP op pin), decodePin, if_pos hi]

theorem decode_encode_getLevel {pin : PinField} (hi : (Instr.getLevel pin).WellFormed) :
    decode (encode (.getLevel pin)) = .legal (.getLevel pin) := by
  simpa [encode, decode] using decodeP_encodeP 0x4 pin hi

theorem decode_encode_openIface : decode (encode .openIface) = .legal .openIface := by decide

theorem decode_encode_initPins : decode (encode .initPins) = .legal .initPins := by decide

theorem decode_encode_closeIface : decode (encode .closeIface) = .legal .closeIface := by decide

/-- Settles O2: one lemma per command, from the fields of the word of its format. -/
theorem decodeEncodeRoundTrip : Obligations.DecodeEncodeRoundTrip := by
  intro i hi
  cases i with
  | openIface => exact decode_encode_openIface
  | setFunction pin fn => exact decode_encode_setFunction hi
  | pinSet pin => exact decode_encode_pinSet hi
  | pinClr pin => exact decode_encode_pinClr hi
  | getLevel pin => exact decode_encode_getLevel hi
  | initPins => exact decode_encode_initPins
  | closeIface => exact decode_encode_closeIface
  | srWrite byte => exact decode_encode_srWrite byte
  | dispStart => exact decode_encode_dispStart
  | dispByte byte => exact decode_encode_dispByte byte
  | dispCmd byte => exact decode_encode_dispCmd byte

/-! ### A word is its fields, put together -/

theorem getLsbD_encodeN (op : BitVec 4) (i : Nat) :
    (encodeN op).getLsbD i = if i < 12 then false else op.getLsbD (i - 12) := by
  show (op ++ 0#12 : BitVec (4 + 12)).getLsbD i = _
  simp only [BitVec.getLsbD_append, BitVec.getLsbD_zero]

theorem getLsbD_opcodeField (w : CmdWord) {i : Nat} (hi : 12 ≤ i) (hlt : i < 16) :
    (opcodeField w).getLsbD (i - 12) = w.getLsbD i := by
  have h4 : i - 12 < 4 := by omega
  have hadd : 12 + (i - 12) = i := by omega
  simp [opcodeField, h4, hadd]

/-- The bits of a field that is zero. -/
theorem getLsbD_of_extractLsb'_zero {w : CmdWord} {start len : Nat} (hz : w.extractLsb' start len = 0) {i : Nat}
    (hi : start ≤ i) (hlt : i < start + len) : w.getLsbD i = false := by
  have hbit := congrArg (fun v => v.getLsbD (i - start)) hz
  have hlen : i - start < len := by omega
  have hadd : start + (i - start) = i := by omega
  simpa [hlen, hadd] using hbit

theorem encodeN_fields {w : CmdWord} (hz : w.extractLsb' 0 12 = 0#12) : encodeN (opcodeField w) = w := by
  apply BitVec.eq_of_getLsbD_eq
  intro i hi
  rw [getLsbD_encodeN]
  split
  · exact (getLsbD_of_extractLsb'_zero hz (by omega) (by omega)).symm
  · exact getLsbD_opcodeField w (by omega) hi

theorem encodeB_fields {w : CmdWord} (hz : w.extractLsb' 8 4 = 0#4) : encodeB (opcodeField w) (byteField w) = w := by
  apply BitVec.eq_of_getLsbD_eq
  intro i hi
  rw [getLsbD_encodeB]
  split
  · next h8 => simp [byteField, h8]
  · split
    · exact (getLsbD_of_extractLsb'_zero hz (by omega) (by omega)).symm
    · exact getLsbD_opcodeField w (by omega) hi

theorem encodeP_fields {w : CmdWord} (hz : w.extractLsb' 6 6 = 0#6) : encodeP (opcodeField w) (pinField w) = w := by
  apply BitVec.eq_of_getLsbD_eq
  intro i hi
  rw [getLsbD_encodeP]
  split
  · next h6 => simp [pinField, h6]
  · split
    · exact (getLsbD_of_extractLsb'_zero hz (by omega) (by omega)).symm
    · exact getLsbD_opcodeField w (by omega) hi

theorem encodePinWithBit_fields {w : CmdWord} {q : BitVec 1} (hq : q.getLsbD 0 = w.getLsbD 6)
    (hz : w.extractLsb' 7 5 = 0#5) : encodePinWithBit (opcodeField w) q (pinField w) = w := by
  apply BitVec.eq_of_getLsbD_eq
  intro i hi
  rw [getLsbD_encodePinWithBit]
  split
  · next h6 => simp [pinField, h6]
  · split
    · obtain rfl : i = 6 := by omega
      exact hq
    · split
      · exact (getLsbD_of_extractLsb'_zero hz (by omega) (by omega)).symm
      · exact getLsbD_opcodeField w (by omega) hi

/-! ### What the decoder answers has the word it was read from -/

theorem opcodeField_eq {w : CmdWord} {n : Nat} (h : (opcodeField w).toNat = n) : opcodeField w = BitVec.ofNat 4 n := by
  rw [← h, BitVec.ofNat_toNat, BitVec.setWidth_eq]

theorem encode_of_decodeN {w : CmdWord} {n : Nat} {i j : Instr} (hop : (opcodeField w).toNat = n)
    (hj : encode j = encodeN (BitVec.ofNat 4 n)) (h : decodeN w j = .legal i) : encode i = w := by
  unfold decodeN at h
  split at h <;> cases h
  next hz => rw [hj, ← opcodeField_eq hop, encodeN_fields hz]

theorem encode_of_decodeB {w : CmdWord} {n : Nat} {i : Instr} {f : Byte → Instr} (hop : (opcodeField w).toNat = n)
    (hf : ∀ byte, encode (f byte) = encodeB (BitVec.ofNat 4 n) byte) (h : decodeB w f = .legal i) : encode i = w := by
  unfold decodeB at h
  split at h <;> cases h
  next hz => rw [hf, ← opcodeField_eq hop, encodeB_fields hz]

theorem encode_of_decodeP {w : CmdWord} {n : Nat} {i j : Instr} (hop : (opcodeField w).toNat = n)
    (hj : encode j = encodeP (BitVec.ofNat 4 n) (pinField w)) (h : decodeP w j = .legal i) : encode i = w := by
  obtain rfl := decodeP_eq_legal h
  unfold decodeP at h
  split at h
  · next hz => rw [hj, ← opcodeField_eq hop, encodeP_fields hz]
  · cases h

theorem encode_of_decodePinWithBit {w : CmdWord} {n : Nat} {q : BitVec 1} {i j : Instr}
    (hop : (opcodeField w).toNat = n) (hq : q.getLsbD 0 = w.getLsbD 6)
    (hj : encode j = encodePinWithBit (BitVec.ofNat 4 n) q (pinField w)) (h : decodePinWithBit w j = .legal i) :
    encode i = w := by
  obtain rfl := decodePinWithBit_eq_legal h
  unfold decodePinWithBit at h
  split at h
  · next hz => rw [hj, ← opcodeField_eq hop, encodePinWithBit_fields hq hz]
  · cases h

/-- The bit of the function a word names (R102). -/
theorem bit_fnField (w : CmdWord) : (fnField w).bit.getLsbD 0 = w.getLsbD 6 := by
  unfold fnField
  cases w.getLsbD 6 <;> rfl

/-- A legal word is the encoding of its command: format by format (R101). -/
theorem encode_of_decode_legal {w : CmdWord} {i : Instr} (h : decode w = .legal i) : encode i = w := by
  unfold decode at h
  split at h
  case h_1 hop => exact encode_of_decodeN hop rfl h
  case h_2 hop => exact encode_of_decodePinWithBit hop (bit_fnField w) rfl h
  case h_3 hop =>
    cases hbit : w.getLsbD 6 with
    | true => rw [hbit] at h; exact encode_of_decodePinWithBit (q := 1) hop hbit.symm rfl h
    | false => rw [hbit] at h; exact encode_of_decodePinWithBit (q := 0) hop hbit.symm rfl h
  case h_4 hop => exact encode_of_decodeP hop rfl h
  case h_5 hop => exact encode_of_decodeN hop rfl h
  case h_6 hop => exact encode_of_decodeN hop rfl h
  case h_7 hop => exact encode_of_decodeB hop (fun _ => rfl) h
  case h_8 hop => exact encode_of_decodeN hop rfl h
  case h_9 hop => exact encode_of_decodeB hop (fun _ => rfl) h
  case h_10 hop => exact encode_of_decodeB hop (fun _ => rfl) h
  case h_11 => cases h

/-! ### The rows of the opcode table -/

/-- The pairs of mask and match of spec/opcode_table.json. -/
def tableRows : List (CmdWord × CmdWord) :=
  [(0xFFFF, 0x1000), (0xFF80, 0x2000), (0xFFC0, 0x3040), (0xFFC0, 0x3000), (0xFFC0, 0x4000), (0xFFFF, 0x5000),
   (0xFFFF, 0x6000), (0xFF00, 0x8000), (0xFFFF, 0x9000), (0xFF00, 0xA000), (0xFF00, 0xB000)]

theorem row_mem_tableRows (i : Instr) : (maskOf i, matchOf i) ∈ tableRows := by
  cases i <;> simp [maskOf, matchOf, tableRows]

/-- Rows whose match values agree under both masks are one row. -/
theorem tableRows_apart : (tableRows.all fun r => tableRows.all fun q =>
    decide (r.2 &&& q.1 = q.2 &&& r.1 → r.2 = q.2)) = true := by decide

/-- A word lies in at most one row (R101). -/
theorem matchOf_eq_of_row {w : CmdWord} {i j : Instr} (hi : w &&& maskOf i = matchOf i)
    (hj : w &&& maskOf j = matchOf j) : matchOf j = matchOf i := by
  have hagree : matchOf j &&& maskOf i = matchOf i &&& maskOf j := by
    rw [← hi, ← hj, BitVec.and_assoc, BitVec.and_assoc, BitVec.and_comm (maskOf j)]
  have hrow := List.all_eq_true.mp tableRows_apart _ (row_mem_tableRows j)
  exact of_decide_eq_true (List.all_eq_true.mp hrow _ (row_mem_tableRows i)) hagree

/-- The word of a well-formed command lies in the command's row. -/
theorem encode_row {i : Instr} (hi : i.WellFormed) : encode i &&& maskOf i = matchOf i := by
  cases i with
  | openIface => exact Laws.EncodeRow.openIface hi
  | setFunction pin fn => exact Laws.EncodeRow.setFunction pin fn hi
  | pinSet pin => exact Laws.EncodeRow.pinSet pin hi
  | pinClr pin => exact Laws.EncodeRow.pinClr pin hi
  | getLevel pin => exact Laws.EncodeRow.getLevel pin hi
  | initPins => exact Laws.EncodeRow.initPins hi
  | closeIface => exact Laws.EncodeRow.closeIface hi
  | srWrite byte => exact Laws.EncodeRow.srWrite byte hi
  | dispStart => exact Laws.EncodeRow.dispStart hi
  | dispByte byte => exact Laws.EncodeRow.dispByte byte hi
  | dispCmd byte => exact Laws.EncodeRow.dispCmd byte hi

/-- Settles O3: the word is its fields put together, so it is the encoding of what it decodes to and lies in that row,
and the rows are apart. -/
theorem decodedWordIsItsEncoding : Obligations.DecodedWordIsItsEncoding := by
  intro w i h
  have hi : i.WellFormed := Machine.decode_wellFormed h
  have henc : encode i = w := encode_of_decode_legal h
  have hrow : w &&& maskOf i = matchOf i := by rw [← henc, encode_row hi]
  exact ⟨hi, henc, hrow, fun _ => matchOf_eq_of_row hrow⟩

/-- Settles O1: twenty fixed words. -/
theorem decodeSpecWords : Obligations.DecodeSpecWords := by
  unfold Obligations.DecodeSpecWords
  decide

end Sys2Proof

namespace Sys2Proof.Machine

/-! ### Where a pin's field and bit are (R90, R97) -/

theorem oneBit_getLsbD (p i : Nat) : (oneBit p).getLsbD i = decide (i = bitInWord p) := by
  have hlt : bitInWord p < 32 := Nat.mod_lt _ (by decide)
  rw [oneBit, ← BitVec.twoPow_eq, BitVec.getLsbD_twoPow]
  by_cases h : bitInWord p = i
  · simp [← h, hlt]
  · simp [h, Ne.symm h]

/-- Two different bits of a word share none. -/
theorem oneBit_and_oneBit {p q : Nat} (h : bitInWord p ≠ bitInWord q) : oneBit p &&& oneBit q = 0 := by
  apply BitVec.eq_of_getLsbD_eq
  intro i hi
  rw [BitVec.getLsbD_and, oneBit_getLsbD, oneBit_getLsbD]
  by_cases hp : i = bitInWord p
  · simp [hp, h]
  · simp [hp]

/-- Settles O5: a pin is its register and field, and its word and bit, by division with remainder. -/
theorem pinPlacesDistinct : Obligations.PinPlacesDistinct := by
  intro p q hp hq
  simp only [fselIndex, fselShift, wordIndex]
  refine ⟨by omega, by omega, by omega, Nat.mod_lt _ (by decide), fun hpq => ⟨by omega, ?_⟩⟩
  by_cases hword : p / 32 = q / 32
  · exact .inr (oneBit_and_oneBit (by simp only [bitInWord]; omega))
  · exact .inl hword

end Sys2Proof.Machine
end

section
/-! SUPPORT. What one step does (R99): the word it takes and the command it performs, going on with a command from its
middle (R41), and what no step changes (R14, R232). -/

namespace Sys2Proof.Machine

/-! ### The word on the port -/

/-- Settles O6: of the cases of `step_idle` only one has this word on the port. -/
theorem stepRunsDecodedCommand : Obligations.StepRunsDecodedCommand := by
  intro s w rest i hs hc hd
  rcases step_idle hs with ⟨hnil, -⟩ | ⟨_, _, _, hc', hd', hstep⟩ | ⟨_, _, _, hc', hd', -⟩
  · cases hc.symm.trans hnil
  · cases hc.symm.trans hc'
    cases hd.symm.trans hd'
    exact hstep
  · cases hc.symm.trans hc'
    cases hd.symm.trans hd'

/-- A word of the opcode table fits in its bits and decodes to its command. -/
theorem decodeTableWord_eq_some {nbits w : Nat} {i : Instr} (h : decodeTableWord nbits w = some i) :
    w % 2 ^ nbits = w ∧ decode (BitVec.ofNat 16 w) = .legal i := by
  unfold decodeTableWord at h
  split at h
  · next hfits =>
    split at h <;> cases h
    next hd => exact ⟨Nat.mod_eq_of_lt hfits.2, hd⟩
  · cases h

/-- Settles O7: the word placed stands on the port of an Idle sequencer. -/
theorem fetchedWordRunsNext : Obligations.FetchedWordRunsNext := by
  intro s nbits w i h
  obtain ⟨hmod, hd⟩ := decodeTableWord_eq_some h
  refine stepRunsDecodedCommand (s.withFetchWord nbits w) (BitVec.ofNat 16 w) s.cmds.tail i rfl ?_ hd
  simp [State.withFetchWord, hmod]

/-- Settles O8: of the cases of `step_idle` only one has an empty port. -/
theorem idleWaitsForWord : Obligations.IdleWaitsForWord := by
  intro s hs hc
  rcases step_idle hs with ⟨-, hstep⟩ | ⟨_, _, _, hc', -, -⟩ | ⟨_, _, _, hc', -, -⟩
  · exact hstep
  · cases hc.symm.trans hc'
  · cases hc.symm.trans hc'

/-- Settles O22: such a command is not well-formed, and legality is tested before `life`. -/
theorem pinAbove57Refused : Obligations.PinAbove57Refused := by
  intro s p f hs hp r
  have hill : ∀ i : Instr, i.pin? = some p → exec i s = r := by
    intro i hi
    have hwf : ¬ i.WellFormed := fun hwf => Nat.not_le.mpr hp (pin_le_57_of_wellFormed hwf hi)
    rw [exec_eq_command, command_illegal hs hwf]
    rfl
  exact ⟨hill _ rfl, hill _ rfl, hill _ rfl, hill _ rfl⟩

/-! ### Inside a command -/

/-- Settles O9: the index counts the micro-operations performed, configuration and environment stay, and so the rest of
the expansion from there is the rest of the whole. -/
theorem resumeAgreesWithExec : Obligations.ResumeAgreesWithExec := by
  intro s t i k hs hi hg hk h
  obtain ⟨hupc, hcur⟩ := performAll_upc h
  have hmoves := performAll_moves h
  have hk' : t.seq.upc = k := by simpa [hk] using hupc
  refine ⟨hcur, hk', ?_⟩
  have hrest : expansion t.cfg t.env i = expansion s.cfg s.env i := by
    rw [hmoves.cfg, hmoves.env, accept_cfg, accept_env]
  calc step t = runToEnd ((expansion s.cfg s.env i).drop k) t := by rw [step_busy hcur, resume, hrest, hk']
    _ = runToEnd ((expansion s.cfg s.env i).take k ++ (expansion s.cfg s.env i).drop k) (accept i s) := by
        rw [runToEnd, runToEnd, performAll_append, h, andThen_next]
    _ = exec i s := by rw [List.take_append_drop, exec_eq_command, hg, command_run hs hi]

theorem exec_busy {s : State} (hs : s.seq.cur ≠ none) (i : Instr) : exec i s = .next s := by
  obtain ⟨j, hj⟩ := Option.ne_none_iff_exists'.mp hs
  rw [exec_eq_command, command_busy hj]

/-- A step inside a command goes on with it, which ends in Idle and moves no more than micro-operations do. -/
theorem step_busy_moves {s t : State} (hs : s.seq.cur ≠ none) (h : step s = .next t) :
    Moves s t ∧ t.seq = .idle := by
  obtain ⟨i, hi⟩ := Option.ne_none_iff_exists'.mp hs
  rw [step_busy hi] at h
  exact runToEnd_moves h

/-- Settles O10: such a step is the rest of a command, and a busy sequencer accepts none. -/
theorem busyAcceptsNoWord : Obligations.BusyAcceptsNoWord := by
  refine ⟨fun s t hs h => ?_, fun s i hs => exec_busy hs i⟩
  obtain ⟨hmoves, hidle⟩ := step_busy_moves hs h
  exact ⟨hidle, hmoves.cmds⟩

/-! ### What every step keeps and what its events say -/

/-- Whatever a step does, the arguments stay and the Register Block, the pads and the delay count are what its bus
events make them (R63, R170, R232). -/
theorem step_moves {s t : State} (h : step s = .next t) :
    t.cfg = s.cfg ∧ t.env = s.env ∧ ∃ es, t.busTrace = s.busTrace ++ es ∧ t.block = blockAfter s.cfg s.block es ∧
      t.padTrace = s.padTrace ++ padsAfter s.cfg s.block es ∧ t.elapsedUnits = s.elapsedUnits + delayUnits es := by
  by_cases hs : s.seq.cur = none
  · rcases step_idle hs with ⟨-, hstep⟩ | ⟨w, rest, i, -, -, hstep⟩ | ⟨w, rest, why, -, -, hstep⟩
    · cases hstep.symm.trans h
      exact ⟨rfl, rfl, (Moves.refl s).events⟩
    · obtain ⟨hcfg, henv, -, hevents⟩ := exec_moves (hstep.symm.trans h)
      exact ⟨hcfg, henv, hevents⟩
    · cases hstep.symm.trans h
      exact ⟨rfl, rfl, (Moves.refl s).events⟩
  · have hmoves := (step_busy_moves hs h).1
    exact ⟨hmoves.cfg, hmoves.env, hmoves.events⟩

/-- Settles O11, from `step_moves`. -/
theorem argumentsNeverChange : Obligations.ArgumentsNeverChange := by
  intro s t h
  obtain ⟨hcfg, henv, -⟩ := step_moves h
  exact ⟨hcfg, henv⟩

/-- Settles O12, from `step_moves`. -/
theorem blockFollowsBusTrace : Obligations.BlockFollowsBusTrace := by
  intro s t h
  obtain ⟨-, -, hevents⟩ := step_moves h
  exact hevents

end Sys2Proof.Machine
end

section
/-! SUPPORT. The invariant: the part of it the lifecycle commands move (R35 to R37, R61, R243), and every step's share
in keeping it. -/

namespace Sys2Proof.Machine

/-! ### OPEN performed (R140) -/

/-- What `OPEN` does in an environment: the first failing test's fatal cause, or the mapping. -/
def openEffect (e : Env) (s : State) : State :=
  match openCause e with
  | some cause => raiseFatal cause s
  | none => mapBlock s

theorem runToEnd_expandOpen (e : Env) (s : State) :
    runToEnd (expandOpen e) s = .next (finish (openEffect e s)) := by
  unfold expandOpen openEffect
  cases openCause e <;> rfl

/-! ### The lifecycle part of the invariant -/

/-- What the invariant says of `life`, `mapped`, `fatal_cause` and the bus trace together. -/
structure State.LifeAgrees (s : State) : Prop where
  mapped : s.mapped = decide (s.life = .opened)
  cause : s.fatalCause.isSome = decide (s.life = .aborted)
  trace : traceLife .unopened s.busTrace = some s.life

theorem State.Inv.lifeAgrees {s : State} (h : s.Inv) : s.LifeAgrees := ⟨h.mapped, h.cause, h.trace⟩

/-- Only these four fields matter to it. -/
theorem State.LifeAgrees.congr {s t : State} (h : s.LifeAgrees) (hl : t.life = s.life) (hm : t.mapped = s.mapped)
    (hc : t.fatalCause = s.fatalCause) (hb : t.busTrace = s.busTrace) : t.LifeAgrees :=
  ⟨by rw [hm, hl, h.mapped], by rw [hc, hl, h.cause], by rw [hb, hl, h.trace]⟩

theorem traceLife_snoc {l k : Life} {es : List BusEvent} (h : traceLife l es = some k) (e : BusEvent) :
    traceLife l (es ++ [e]) = lifeAfter k e := by
  rw [traceLife_append, h]
  cases hk : lifeAfter k e <;> simp [traceLife, hk]

theorem openEffect_lifeAgrees {s : State} (h : s.LifeAgrees) (hl : s.life = .unopened) (e : Env) :
    (openEffect e s).LifeAgrees := by
  obtain ⟨hm, hc, ht⟩ := h
  rw [hl] at hm hc ht
  unfold openEffect
  split
  · exact ⟨by simpa using hm, by simp, by simp [traceLife_snoc ht, lifeAfter]⟩
  · exact ⟨by simp, by simpa using hc, by simp [traceLife_snoc ht, lifeAfter]⟩

/-- Register accesses and delays of an open interface. -/
theorem performAll_access_lifeAgrees {ms : List Micro} (ho : AccessOnly ms) {s t : State} (h : s.LifeAgrees)
    (hl : s.life = .opened) (hrun : performAll ms s = .next t) : t.LifeAgrees ∧ t.life = .opened := by
  obtain ⟨hlife, hmapped, hcause, htrace⟩ := performAll_access ho (hl ▸ h.trace) hrun
  have htl : t.life = .opened := hlife.trans hl
  exact ⟨⟨by rw [hmapped, hlife, h.mapped], by rw [hcause, hlife, h.cause], by rw [htl, htrace]⟩, htl⟩

theorem unmapBlock_lifeAgrees {s : State} (h : s.LifeAgrees) (hl : s.life = .opened) :
    (unmapBlock s).LifeAgrees := by
  obtain ⟨-, hc, ht⟩ := h
  rw [hl] at hc ht
  exact ⟨by simp, by simpa using hc, by simp [traceLife_snoc ht, lifeAfter]⟩

/-- `CLOSE` performed: accesses of an open interface, then `Unmap` (R150). -/
theorem performAll_expandClose_lifeAgrees {c : Config} {s t : State} (h : s.LifeAgrees) (hl : s.life = .opened)
    (hrun : performAll (expandClose c) s = .next t) : t.LifeAgrees := by
  obtain ⟨ms, hms, heq⟩ := expandClose_eq c
  rw [heq, performAll_append] at hrun
  obtain ⟨u, hu, hrun⟩ := andThen_eq_next hrun
  obtain ⟨hagrees, hopened⟩ := performAll_access_lifeAgrees hms h hl hu
  cases hrun
  exact (unmapBlock_lifeAgrees hagrees hopened).congr rfl rfl rfl rfl

theorem gateOpen_eq_run {l : Life} : gateOpen l = .run ↔ l = .opened := by
  cases l <;> simp [gateOpen]

theorem gateOf_eq_gateOpen {i : Instr} (ho : i ≠ .openIface) (hc : i ≠ .closeIface) (l : Life) :
    gateOf l i = gateOpen l := by
  cases i with
  | openIface => exact absurd rfl ho
  | closeIface => exact absurd rfl hc
  | _ => rfl

/-- A command performed keeps the lifecycle part, whichever gate let it pass. -/
theorem runToEnd_expansion_lifeAgrees {i : Instr} {s t : State} (h : s.LifeAgrees) (hg : gateOf s.life i = .run)
    (hrun : runToEnd (expansion s.cfg s.env i) (accept i s) = .next t) : t.LifeAgrees := by
  have haccept : (accept i s).LifeAgrees := h.congr rfl rfl rfl rfl
  by_cases ho : i = .openIface
  · subst ho
    cases (runToEnd_expandOpen s.env _).symm.trans hrun
    exact (openEffect_lifeAgrees haccept (gateUnopened_eq_run.mp hg) s.env).congr rfl rfl rfl rfl
  · obtain ⟨u, hu, rfl⟩ := runToEnd_next hrun
    suffices hagrees : u.LifeAgrees from hagrees.congr rfl rfl rfl rfl
    by_cases hc : i = .closeIface
    · subst hc
      exact performAll_expandClose_lifeAgrees haccept (gateClose_eq_run.mp hg) hu
    · rw [gateOf_eq_gateOpen ho hc] at hg
      exact (performAll_access_lifeAgrees (accessOnly_expansion s.cfg s.env ho hc) haccept
        (gateOpen_eq_run.mp hg) hu).1

theorem exec_lifeAgrees {i : Instr} {s t : State} (h : s.LifeAgrees) (hexec : exec i s = .next t) : t.LifeAgrees := by
  rw [exec_eq_command] at hexec
  rcases command_next hexec with ⟨-, rfl⟩ | ⟨-, -, rfl⟩ | ⟨-, -, why, -, rfl⟩ | ⟨-, -, -, rfl⟩ | ⟨-, -, hg, hrun⟩
  · exact h
  · exact h.congr rfl rfl rfl rfl
  · exact h.congr rfl rfl rfl rfl
  · exact h.congr rfl rfl rfl rfl
  · exact runToEnd_expansion_lifeAgrees h hg hrun

/-! ### Every step keeps the invariant -/

/-- From an Idle state a step leaves an Idle state and keeps the lifecycle part. -/
theorem step_idle_lifeAgrees {s t : State} (hs : s.seq = .idle) (h : s.LifeAgrees) (hstep : step s = .next t) :
    t.seq = .idle ∧ t.LifeAgrees := by
  have hcur : s.seq.cur = none := by rw [hs]; rfl
  rcases step_idle hcur with ⟨-, heq⟩ | ⟨w, rest, i, -, -, heq⟩ | ⟨w, rest, why, -, -, heq⟩
  · cases heq.symm.trans hstep
    exact ⟨hs, h⟩
  · have hexec := heq.symm.trans hstep
    have hrest : State.LifeAgrees { s with cmds := rest } := h.congr rfl rfl rfl rfl
    exact ⟨exec_idle (s := { s with cmds := rest }) hs hexec, exec_lifeAgrees hrest hexec⟩
  · cases heq.symm.trans hstep
    exact ⟨hs, h.congr rfl rfl rfl rfl⟩

/-- Settles O15: the sequencer and the lifecycle part by `step_idle_lifeAgrees`, the rest because a step does what its
bus events do. -/
theorem stepKeepsInvariant : Obligations.StepKeepsInvariant := by
  intro s t h hstep
  obtain ⟨hidle, hagrees⟩ := step_idle_lifeAgrees h.idle h.lifeAgrees hstep
  obtain ⟨hcfg, -, es, hbus, hblock, -, helapsed⟩ := step_moves hstep
  exact {
    cfg := hcfg ▸ h.cfg
    idle := hidle
    mapped := hagrees.mapped
    cause := hagrees.cause
    block := by rw [hblock]; exact blockAfter_wf h.block es
    trace := hagrees.trace
    elapsed := by rw [helapsed, hbus, delayUnits_append, h.elapsed] }

/-- Settles O14: every clause is a closed fact about the power-on values. -/
theorem resetMeetsInvariant : Obligations.ResetMeetsInvariant :=
  { cfg := by decide, idle := rfl, mapped := rfl, cause := rfl, block := zero_wf, trace := rfl, elapsed := rfl }

/-! ### No command stops the model -/

/-- A command that its gate lets pass is performed to its end, the mapping being live while `life` is OPEN. -/
theorem runToEnd_expansion_completes {s : State} (hcfg : s.cfg.Admissible)
    (hm : s.mapped = decide (s.life = .opened)) {i : Instr} (hi : i.WellFormed) (hg : gateOf s.life i = .run) :
    ∃ t, runToEnd (expansion s.cfg s.env i) (accept i s) = .next t := by
  by_cases ho : i = .openIface
  · subst ho
    exact ⟨_, runToEnd_expandOpen s.env _⟩
  · have hl : s.life = .opened := by
      by_cases hc : i = .closeIface
      · subst hc
        exact gateClose_eq_run.mp hg
      · exact gateOpen_eq_run.mp (gateOf_eq_gateOpen ho hc s.life ▸ hg)
    have hmapped : s.mapped = true := by rw [hm, hl]; rfl
    obtain ⟨u, hu⟩ := performAll_expansion_completes (s := accept i s) hcfg hmapped s.env hi ho
    exact ⟨finish u, congrArg (andThen · _) hu⟩

theorem exec_completes {s : State} (hs : s.seq.cur = none) (hcfg : s.cfg.Admissible)
    (hm : s.mapped = decide (s.life = .opened)) (i : Instr) : ∃ t, exec i s = .next t := by
  rw [exec_eq_command]
  by_cases hi : i.WellFormed
  · cases hg : gateOf s.life i with
    | refuse why => exact ⟨_, command_refuse hs hi why _⟩
    | noOp => exact ⟨_, command_noOp hs hi _⟩
    | run => rw [command_run hs hi]; exact runToEnd_expansion_completes hcfg hm hi hg
  · exact ⟨_, command_illegal hs hi _ _⟩

/-- Settles O16: a step waits, refuses a word or performs a command, and the invariant has what a command needs. -/
theorem stepNeverStops : Obligations.StepNeverStops := by
  intro s h
  have hcur : s.seq.cur = none := by rw [h.idle]; rfl
  rcases step_idle hcur with ⟨-, heq⟩ | ⟨w, rest, i, -, -, heq⟩ | ⟨w, rest, why, -, -, heq⟩
  · exact ⟨_, heq⟩
  · rw [heq]
    exact exec_completes (s := { s with cmds := rest }) hcur h.cfg h.mapped i
  · exact ⟨_, heq⟩

/-! ### What a bus trace that shows a lifecycle looks like (R61, R243) -/

theorem traceLife_cons {l k : Life} {e : BusEvent} {es : List BusEvent} (h : traceLife l (e :: es) = some k) :
    ∃ m, lifeAfter l e = some m ∧ traceLife m es = some k := Option.bind_eq_some_iff.mp h

/-- Nothing may stand after `Unmap`. -/
theorem traceLife_closed {k : Life} {es : List BusEvent} (h : traceLife .closed es = some k) : k = .closed ∧ es = [] := by
  cases es with
  | nil => cases h; exact ⟨rfl, rfl⟩
  | cons e es => obtain ⟨m, hm, -⟩ := traceLife_cons h; cases e <;> cases hm

/-- Nothing may stand after a fatal cause. -/
theorem traceLife_aborted {k : Life} {es : List BusEvent} (h : traceLife .aborted es = some k) :
    k = .aborted ∧ es = [] := by
  cases es with
  | nil => cases h; exact ⟨rfl, rfl⟩
  | cons e es => obtain ⟨m, hm, -⟩ := traceLife_cons h; cases e <;> cases hm

/-- After `Map` there is no second one, and at most one `Unmap`, which ends the trace. -/
theorem traceLife_opened {k : Life} {es : List BusEvent} (h : traceLife .opened es = some k) :
    es.count .map = 0 ∧ es.count .unmap ≤ 1 ∧ (k = .opened ∧ .unmap ∉ es ∨ k = .closed) := by
  induction es with
  | nil => cases h; simp
  | cons e es ih =>
    obtain ⟨m, hm, hes⟩ := traceLife_cons h
    cases e with
    | map => cases hm
    | fatal cause => cases hm
    | unmap =>
      cases hm
      obtain ⟨rfl, rfl⟩ := traceLife_closed hes
      simp
    | busRead w v => cases hm; simpa using ih hes
    | busWrite w v => cases hm; simpa using ih hes
    | delay n => cases hm; simpa using ih hes

/-- From power-on: nothing yet, a fatal cause alone, or `Map` and what may follow it. -/
theorem traceLife_unopened {k : Life} {es : List BusEvent} (h : traceLife .unopened es = some k) :
    (k = .unopened ∧ es = []) ∨ (k = .aborted ∧ ∃ cause, es = [.fatal cause]) ∨
    ∃ fs, es = .map :: fs ∧ traceLife .opened fs = some k := by
  cases es with
  | nil => cases h; exact .inl ⟨rfl, rfl⟩
  | cons e es =>
    obtain ⟨m, hm, hes⟩ := traceLife_cons h
    cases e with
    | map => cases hm; exact .inr (.inr ⟨es, rfl, hes⟩)
    | fatal cause =>
      cases hm
      obtain ⟨hk, rfl⟩ := traceLife_aborted hes
      exact .inr (.inl ⟨hk, cause, rfl⟩)
    | unmap => cases hm
    | busRead w v => cases hm
    | busWrite w v => cases hm
    | delay n => cases hm

theorem traceLife_counts {k : Life} {es : List BusEvent} (h : traceLife .unopened es = some k) :
    es.count .map ≤ 1 ∧ es.count .unmap ≤ 1 := by
  rcases traceLife_unopened h with ⟨-, rfl⟩ | ⟨-, cause, rfl⟩ | ⟨fs, rfl, hfs⟩
  · simp
  · simp
  · obtain ⟨hmap, hunmap, -⟩ := traceLife_opened hfs
    simp [hmap, hunmap]

/-- A trace that shows an open interface holds its `Map` and no `Unmap`. -/
theorem map_mem_of_traceLife_opened {es : List BusEvent} (h : traceLife .unopened es = some .opened) :
    .map ∈ es ∧ .unmap ∉ es := by
  rcases traceLife_unopened h with ⟨hk, -⟩ | ⟨hk, -⟩ | ⟨fs, rfl, hfs⟩
  · cases hk
  · cases hk
  · obtain ⟨-, -, ⟨-, hunmap⟩ | hk⟩ := traceLife_opened hfs
    · simp [hunmap]
    · cases hk

/-- An access or a delay may stand only where the interface is open (R61). -/
theorem lifeAfter_access {l k : Life} {e : BusEvent}
    (he : (∃ w v, e = .busRead w v) ∨ (∃ w v, e = .busWrite w v) ∨ (∃ n, e = .delay n))
    (h : lifeAfter l e = some k) : l = .opened := by
  rcases he with ⟨w, v, rfl⟩ | ⟨w, v, rfl⟩ | ⟨n, rfl⟩
  all_goals
    cases l with
    | opened => rfl
    | unopened => cases h
    | closed => cases h
    | aborted => cases h

/-- Settles O17: the trace up to an access shows an open interface. -/
theorem accessOnlyWhileMapped : Obligations.AccessOnlyWhileMapped := by
  intro s h
  obtain ⟨hmap, hunmap⟩ := traceLife_counts h.trace
  refine ⟨hmap, hunmap, fun before after e hsplit he => ?_⟩
  have htrace := h.trace
  rw [hsplit, traceLife_append] at htrace
  obtain ⟨l, hl, hrest⟩ := Option.bind_eq_some_iff.mp htrace
  obtain ⟨m, hm, -⟩ := traceLife_cons hrest
  obtain rfl := lifeAfter_access he hm
  exact map_mem_of_traceLife_opened hl

/-- Settles O18: of the traces `traceLife_unopened` allows only the fatal cause alone shows ABORTED. -/
theorem abortedTouchedNothing : Obligations.AbortedTouchedNothing := by
  intro s h hl
  rcases traceLife_unopened (hl ▸ h.trace) with ⟨hk, -⟩ | ⟨-, hcause⟩ | ⟨fs, -, hfs⟩
  · cases hk
  · exact hcause
  · obtain ⟨-, -, ⟨hk, -⟩ | hk⟩ := traceLife_opened hfs
    · cases hk
    · cases hk

end Sys2Proof.Machine
end

section
/-! SUPPORT. The lifecycle commands OPEN, INIT_PINS and CLOSE (spec/41_lifecycle.md) and the lifecycle table (R203). -/

namespace Sys2Proof.Machine

/-! ### The table (R203) -/

/-- A legal command is answered as its gate says. -/
theorem exec_of_gate_refuse {s : State} (hs : s.seq = .idle) {i : Instr} (hi : i.WellFormed) {why : RefuseReason}
    (hg : gateOf s.life i = .refuse why) :
    exec i s = .next { s with response := some (.refused why), refusedMark := true } := by
  rw [exec_eq_command, hg, command_refuse (by rw [hs]; rfl) hi]
  rfl

theorem exec_of_gate_noOp {s : State} (hs : s.seq = .idle) {i : Instr} (hi : i.WellFormed)
    (hg : gateOf s.life i = .noOp) : exec i s = .next { s with response := none } := by
  rw [exec_eq_command, hg, command_noOp (by rw [hs]; rfl) hi]
  rfl

theorem exec_of_gate_run {s : State} (hs : s.seq = .idle) {i : Instr} (hi : i.WellFormed)
    (hg : gateOf s.life i = .run) : exec i s = runToEnd (expansion s.cfg s.env i) (accept i s) := by
  rw [exec_eq_command, hg, command_run (by rw [hs]; rfl) hi]

/-- Where the interface was never opened or has aborted every command but `OPEN` is refused `NOT_OPEN`. -/
theorem gateOf_notOpen {i : Instr} (ho : i ≠ .openIface) {l : Life} (hl : l = .unopened ∨ l = .aborted) :
    gateOf l i = .refuse .notOpen := by
  by_cases hc : i = .closeIface
  · subst hc
    rcases hl with rfl | rfl <;> rfl
  · rw [gateOf_eq_gateOpen ho hc]
    rcases hl with rfl | rfl <;> rfl

/-- `t` carries no refusal that `s` did not: no new mark, and no refusal on the response port. -/
def PerformedFrom (s t : State) : Prop := t.refusedMark = s.refusedMark ∧ ∀ why, t.response ≠ some (.refused why)

/-- A legal command that its gate lets pass is performed, with the next life of its expansion. -/
theorem exec_performed {s : State} (hs : s.seq = .idle) (hcfg : s.cfg.Admissible)
    (hm : s.mapped = decide (s.life = .opened)) {i : Instr} (hi : i.WellFormed) (hg : gateOf s.life i = .run)
    {P : Life → Prop} (hP : ∀ u, performAll (expansion s.cfg s.env i) (accept i s) = .next u → P u.life) :
    ∃ t, exec i s = .next t ∧ PerformedFrom s t ∧ P t.life := by
  obtain ⟨t, ht⟩ := runToEnd_expansion_completes hcfg hm hi hg
  obtain ⟨u, hu, hlife⟩ := runToEnd_life ht
  exact ⟨t, (exec_of_gate_run hs hi hg).trans ht, ⟨(runToEnd_moves ht).1.mark, runToEnd_accept_noRefusal ht⟩,
    hlife ▸ hP u hu⟩

/-- Settles O20: the gate of each command in each lifecycle state, and what it answers. -/
theorem lifecycleTable : Obligations.LifecycleTable := by
  intro s hs hcfg hm refused performed
  refine ⟨fun w rest why hc hd => step_illegal (by rw [hs]; rfl) hc hd, fun i hi => ?_⟩
  have hperformed {P : Life → Prop} (hg : gateOf s.life i = .run)
      (hP : ∀ u, performAll (expansion s.cfg s.env i) (accept i s) = .next u → P u.life) :=
    exec_performed hs hcfg hm hi hg hP
  have hgate {l : Life} (hl : s.life = l) {g : Gate} (hg : gateOf l i = g) : gateOf s.life i = g := hl ▸ hg
  split
  case h_1 hl =>
    split_ifs with ho
    · subst ho
      exact hperformed (P := fun l => l = .opened ∨ l = .aborted) (hgate hl rfl) fun _ => performAll_expandOpen_life
    · exact exec_of_gate_refuse hs hi (hgate hl (gateOf_notOpen ho (.inl rfl)))
  case h_2 hl =>
    split_ifs with ho hc
    · subst ho; exact exec_of_gate_refuse hs hi (hgate hl rfl)
    · subst hc
      exact hperformed (P := (· = .closed)) (hgate hl rfl) fun _ => performAll_expandClose_life
    · refine hperformed (P := (· = .opened)) (hgate hl (gateOf_eq_gateOpen ho hc _)) fun u hu => ?_
      rw [performAll_access_life (accessOnly_expansion s.cfg s.env ho hc) hu, accept_life, hl]
  case h_3 hl =>
    split_ifs with ho hc
    · subst ho; exact exec_of_gate_refuse hs hi (hgate hl rfl)
    · subst hc; exact exec_of_gate_noOp hs hi (hgate hl rfl)
    · exact exec_of_gate_refuse hs hi (hgate hl (gateOf_eq_gateOpen ho hc _))
  case h_4 hl =>
    split_ifs with ho
    · subst ho; exact exec_of_gate_refuse hs hi (hgate hl rfl)
    · exact exec_of_gate_refuse hs hi (hgate hl (gateOf_notOpen ho (.inr rfl)))

/-! ### OPEN (R140, R190) -/

/-- Both outcomes of `OPEN` respond, so what accepting and ending the command does is not seen. -/
theorem finish_openEffect_accept {s : State} (hs : s.seq = .idle) (e : Env) :
    finish (openEffect e (accept .openIface s)) = openEffect e s := by
  unfold openEffect
  cases openCause e <;> simp [finish, accept, raiseFatal, mapBlock, hs]

theorem exec_openIface_unopened {s : State} (hs : s.seq = .idle) (hl : s.life = .unopened) :
    exec .openIface s = .next (openEffect s.env s) := by
  have hg : gateOf s.life .openIface = .run := gateUnopened_eq_run.mpr hl
  rw [exec_of_gate_run hs rfl hg, expansion, runToEnd_expandOpen, finish_openEffect_accept hs]

theorem gateUnopened_of_ne_unopened {l : Life} (h : l ≠ .unopened) : gateUnopened l = .refuse .alreadyOpened := by
  cases l with
  | unopened => exact absurd rfl h
  | opened => rfl
  | closed => rfl
  | aborted => rfl

/-- Settles O23: the three tests of `openCause` written out. -/
theorem openMapsOrAborts : Obligations.OpenMapsOrAborts := by
  refine ⟨decode_encode_openIface, fun s hs hl => ?_, fun s hs hl => ?_⟩
  · rw [exec_openIface_unopened hs hl, openEffect, openCause]
    cases s.env.supported
    · rfl
    · cases s.env.devOpenable
      · rfl
      · cases s.env.mappable <;> rfl
  · exact exec_of_gate_refuse hs rfl (gateUnopened_of_ne_unopened hl)

theorem openEffect_of_cause {e : Env} {cause : FatalCause} (h : openCause e = some cause) (s : State) :
    openEffect e s = raiseFatal cause s := by
  simp [openEffect, h]

theorem openEffect_of_no_cause {e : Env} (h : openCause e = none) (s : State) : openEffect e s = mapBlock s := by
  simp [openEffect, h]

@[simp] theorem openEffect_block (e : Env) (s : State) : (openEffect e s).block = s.block := by
  unfold openEffect
  split <;> rfl

/-- Settles O24: the cause `openCause` finds in each of the four environments. -/
theorem fatalCauseCodes : Obligations.FatalCauseCodes := by
  intro s hs hl
  refine ⟨_, exec_openIface_unopened hs hl, openEffect_block _ _, fun h1 => ?_, fun h1 h2 => ?_, fun h1 h2 h3 => ?_,
    fun h => ?_⟩
  · rw [openEffect_of_cause (cause := .unsupportedModel) (by simp [openCause, h1])]
    exact ⟨rfl, rfl⟩
  · rw [openEffect_of_cause (cause := .openDeviceFailed) (by simp [openCause, h1, h2])]
    exact ⟨rfl, rfl⟩
  · rw [openEffect_of_cause (cause := .mapFailed) (by simp [openCause, h1, h2, h3])]
    exact ⟨rfl, rfl⟩
  · rw [openEffect_of_no_cause (by simp [openCause, h])]
    exact ⟨rfl, rfl⟩

/-! ### INIT_PINS (R145, R146) -/

/-- The pad events of a read-modify-write and what follows it. -/
theorem padsAfter_functionEvents {c : Config} (h : c.Admissible) (b : Block) {p : Nat} (hp : p < 58) (f : PinFunction)
    (es : List BusEvent) :
    padsAfter c b (functionEvents c p f (b.fselWord (fselIndex p)) ++ es) =
      padChanges c b (b.withFunction c p f) ++ padsAfter c (b.withFunction c p f) es := by
  simp [functionEvents, padsAfter, blockEvent_function h b hp f]

/-- `SET_FUNCTION(p, Output)` for the pins of a list, one after another. -/
theorem performAll_outputs {s : State} (hc : s.cfg.Admissible) (hm : s.mapped = true) {ps : List Nat}
    (hps : ∀ p ∈ ps, p < 58) :
    ∃ q, performAll (ps.flatMap fun p => microSetFunction s.cfg p .output) s = .next { s with
      block := s.block.withOutputs s.cfg ps
      busTrace := s.busTrace ++ outputEvents s.cfg s.block ps
      primTrace := s.primTrace ++ ps.map fun p => .setFunction p .output
      padTrace := s.padTrace ++ padsAfter s.cfg s.block (outputEvents s.cfg s.block ps)
      seq := q } := by
  induction ps generalizing s with
  | nil => exact ⟨s.seq, by simp [Block.withOutputs, outputEvents, padsAfter]⟩
  | cons p ps ih =>
    obtain ⟨hp, hrest⟩ := List.forall_mem_cons.mp hps
    obtain ⟨q, hq⟩ := performAll_setFunction hc hm hp .output
    obtain ⟨r, hr⟩ := ih (s := { s with
      block := s.block.withFunction s.cfg p .output
      busTrace := s.busTrace ++ functionEvents s.cfg p .output (s.block.fselWord (fselIndex p))
      primTrace := s.primTrace ++ [.setFunction p .output]
      padTrace := s.padTrace ++ padChanges s.cfg s.block (s.block.withFunction s.cfg p .output)
      seq := q }) hc hm hrest
    refine ⟨r, ?_⟩
    rw [List.flatMap_cons, performAll_append, hq, andThen_next, hr, outputEvents, padsAfter_functionEvents hc _ hp]
    simp [Block.withOutputs]

/-- A command performed in a ready state, by what its expansion leaves. -/
theorem exec_ready_performed {s t : State} (h : s.Ready) {i : Instr} (hi : i.WellFormed) (ho : i ≠ .openIface)
    (ht : performAll (expansion s.cfg s.env i) (accept i s) = .next t) : exec i s = .next (finish t) := by
  rw [exec_ready h hi ho, runToEnd, ht, andThen_next]

/-- `INIT_PINS` in a ready state. -/
theorem exec_initPins_ready {s : State} (h : s.Ready) :
    exec .initPins s = .next { s with
      block := s.block.withOutputs s.cfg s.cfg.controlledPins
      busTrace := s.busTrace ++ outputEvents s.cfg s.block s.cfg.controlledPins
      primTrace := s.primTrace ++ s.cfg.controlledPins.map fun p => .setFunction p .output
      padTrace := s.padTrace ++ padsAfter s.cfg s.block (outputEvents s.cfg s.block s.cfg.controlledPins)
      response := none } := by
  obtain ⟨q, hq⟩ := performAll_outputs (s := accept .initPins s) h.cfg h.mapped
    (fun _ => lt_58_of_controlled h.cfg)
  refine (exec_ready_performed (i := .initPins) h rfl (by simp) hq).trans ?_
  simp only [finish, accept, ← h.idle]

theorem length_outputEvents (c : Config) (b : Block) (ps : List Nat) :
    (outputEvents c b ps).length = 2 * ps.length := by
  induction ps generalizing b with
  | nil => rfl
  | cons p ps ih => simp [outputEvents, functionEvents, ih]; omega

@[simp] theorem withOutputs_nil (c : Config) (b : Block) : b.withOutputs c [] = b := rfl

@[simp] theorem withOutputs_cons (c : Config) (b : Block) (p : Nat) (ps : List Nat) :
    b.withOutputs c (p :: ps) = (b.withFunction c p .output).withOutputs c ps := rfl

@[simp] theorem withOutputs_olat (c : Config) (b : Block) (ps : List Nat) : (b.withOutputs c ps).olat = b.olat := by
  induction ps generalizing b with
  | nil => rfl
  | cons p ps ih => rw [withOutputs_cons, ih, withFunction_olat]

/-- The pins of the list have the code of Output, every other pin has the field it had. -/
theorem withOutputs_field (c : Config) (b : Block) {ps : List Nat} (hps : ∀ p ∈ ps, p < 58) (q : Nat) :
    (b.withOutputs c ps).field q = if q ∈ ps then c.fselOutput else b.field q := by
  induction ps generalizing b with
  | nil => simp
  | cons p ps ih =>
    obtain ⟨hp, hrest⟩ := List.forall_mem_cons.mp hps
    rw [withOutputs_cons, ih _ hrest, withFunction_field c b hp]
    by_cases hq : q ∈ ps
    · simp [hq]
    · by_cases hqp : q = p <;> simp [hq, hqp, fnCode]

theorem isOutput_iff (c : Config) (b : Block) (p : Nat) :
    b.isOutput c p = true ↔ p < 58 ∧ b.field p = c.fselOutput := by
  rw [Block.isOutput, Bool.and_eq_true, decide_eq_true_iff, decide_eq_true_iff, npins]

/-- Settles O25: the next state of `exec_initPins_ready` and the fields of `withOutputs`. -/
theorem initPinsMakesOutputs : Obligations.InitPinsMakesOutputs := by
  refine ⟨decode_encode_initPins, needsOpen_of_gateOpen rfl fun _ => rfl, fun s h => ?_⟩
  have hps : ∀ p ∈ s.cfg.controlledPins, p < 58 := fun _ => lt_58_of_controlled h.cfg
  refine ⟨exec_initPins_ready h, length_outputEvents _ _ _, fun p hp => ?_, fun q _ hq => ?_, withOutputs_olat _ _ _⟩
  · rw [isOutput_iff, withOutputs_field _ _ hps, if_pos hp]
    exact ⟨hps p hp, rfl⟩
  · rw [withOutputs_field _ _ hps, if_neg hq]

/-- Making a pin Output that is Output already changes nothing (R69, R146). -/
theorem withFunction_output_same {c : Config} {b : Block} (hw : b.wf = true) {p : Nat}
    (ho : b.isOutput c p = true) : b.withFunction c p .output = b := by
  obtain ⟨hp, hfield⟩ := (isOutput_iff c b p).mp ho
  have hn : fselIndex p < 6 := by simp only [fselIndex]; omega
  have hsame : updateField (b.fselWord (fselIndex p)) (fselShift p) (fnCode c .output) = b.fsel[fselIndex p] := by
    rw [fnCode, ← hfield, Block.field, updateField_same, fselWord_wf hw hn]
  show Block.mk (b.fsel.setIfInBounds (fselIndex p) _) b.olat = b
  rw [hsame]
  congr 1
  apply Vector.ext
  intro i hi
  by_cases hin : fselIndex p = i
  · subst hin; rw [Vector.getElem_setIfInBounds_self]
  · rw [Vector.getElem_setIfInBounds_ne hi hin]

theorem withOutputs_same {c : Config} {b : Block} (hw : b.wf = true) {ps : List Nat}
    (ho : ∀ p ∈ ps, b.isOutput c p = true) : b.withOutputs c ps = b := by
  induction ps with
  | nil => rfl
  | cons p ps ih =>
    obtain ⟨hp, hrest⟩ := List.forall_mem_cons.mp ho
    rw [withOutputs_cons, withFunction_output_same hw hp, ih hrest]

theorem padsAfter_outputEvents_same {c : Config} (h : c.Admissible) {b : Block} (hw : b.wf = true) {ps : List Nat}
    (ho : ∀ p ∈ ps, b.isOutput c p = true) : padsAfter c b (outputEvents c b ps) = [] := by
  induction ps with
  | nil => rfl
  | cons p ps ih =>
    obtain ⟨hp, hrest⟩ := List.forall_mem_cons.mp ho
    rw [outputEvents, padsAfter_functionEvents h b ((isOutput_iff c b p).mp hp).1, withFunction_output_same hw hp,
      padChanges_self, ih hrest, List.append_nil]

/-- Settles O26: every one of the six read-modify-writes writes back the word it read. -/
theorem initPinsAgainChangesNothing : Obligations.InitPinsAgainChangesNothing := by
  intro s h ho hw
  refine ⟨_, exec_initPins_ready h, withOutputs_same hw ho, ?_, ?_⟩
  · simp [padsAfter_outputEvents_same h.cfg hw ho]
  · simp [length_outputEvents, Config.controlledPins]

/-! ### CLOSE (R150 to R152) -/

/-- Micro-operations that are level writes and delays leave the state `afterPrims` says. -/
theorem SerialOf.performAll {s : State} (hc : s.cfg.Admissible) (hm : s.mapped = true) {ms : List Micro}
    {ps : List PrimEvent} (hms : SerialOf s.cfg ms ps) :
    ∃ q, performAll ms s = .next { s.afterPrims ps with seq := q, response := s.response } := by
  obtain ⟨es, hes, rfl, rfl⟩ := hms
  exact performAll_serial hc hm es hes

/-- A register write that completes no primitive. -/
theorem perform_regWrite {s : State} (hm : s.mapped = true) {w : Nat} {r : Reg} (hr : regOf s.cfg w = some r)
    (v : Word) :
    perform ⟨.regWrite w (.word v), none, none⟩ s = .next { s with
      block := blockEvent s.cfg s.block (.busWrite w v)
      busTrace := s.busTrace ++ [.busWrite w v]
      padTrace := s.padTrace ++ padsAfter s.cfg s.block [.busWrite w v]
      seq := { s.seq with bitIndex := none, upc := s.seq.upc + 1 } } := by
  have hd : doOp (.regWrite w (.word v)) (setBitIndex none s) = _ := regWrite_listed (s := setBitIndex none s) v hm hr
  rw [perform, hd]
  rfl

/-- The six pairs of `SAFE_IDLE` name pins (R12, R13). -/
theorem safeIdle_lt_58 {c : Config} (h : c.Admissible) : ∀ pl ∈ c.safeIdle, pl.1 < 58 := fun _ hpl =>
  lt_58_of_controlled h (List.mem_map_of_mem (f := Prod.fst) hpl)

theorem blockAfter_levelEvents {c : Config} (h : c.Admissible) (b : Block) {ls : List (Nat × Level)}
    (hls : ∀ pl ∈ ls, pl.1 < 58) : blockAfter c b (ls.map fun pl => levelEvent c pl.1 pl.2) = b.withLatches ls := by
  induction ls generalizing b with
  | nil => rfl
  | cons pl ls ih =>
    obtain ⟨hp, hrest⟩ := List.forall_mem_cons.mp hls
    rw [List.map_cons, blockAfter_cons, blockEvent_levelEvent h b hp, ih _ hrest]
    rfl

theorem delayUnits_levelEvents (c : Config) (ls : List (Nat × Level)) :
    delayUnits (ls.map fun pl => levelEvent c pl.1 pl.2) = 0 := by
  induction ls with
  | nil => rfl
  | cons pl ls ih => exact ih

theorem primBus_setLevels (c : Config) (ls : List (Nat × Level)) :
    (ls.map fun pl => PrimEvent.setLevel pl.1 pl.2).flatMap (primBus c) =
      ls.map fun pl => levelEvent c pl.1 pl.2 := by
  induction ls with
  | nil => rfl
  | cons pl ls ih => simp [primBus, ih]

/-- Level writes alone: what `afterPrims` leaves of them. -/
theorem afterPrims_setLevels {s : State} (h : s.cfg.Admissible) {ls : List (Nat × Level)}
    (hls : ∀ pl ∈ ls, pl.1 < 58) :
    s.afterPrims (ls.map fun pl => .setLevel pl.1 pl.2) = { s with
      block := s.block.withLatches ls
      busTrace := s.busTrace ++ ls.map fun pl => levelEvent s.cfg pl.1 pl.2
      primTrace := s.primTrace ++ ls.map fun pl => .setLevel pl.1 pl.2
      padTrace := s.padTrace ++ padsAfter s.cfg s.block (ls.map fun pl => levelEvent s.cfg pl.1 pl.2)
      response := none } := by
  simp only [State.afterPrims, primBus_setLevels, blockAfter_levelEvents h _ hls, delayUnits_levelEvents, Nat.add_zero]

/-- A write of zero to a clear register moves no latch and no pad. -/
theorem perform_clearZero {c : Config} (hc : c.Admissible) {n : Nat} (hn : n < 2) {s : State} (hs : s.cfg = c)
    (hm : s.mapped = true) :
    perform ⟨.regWrite (c.clrBase + n) (.word 0), none, none⟩ s = .next { s with
      busTrace := s.busTrace ++ [.busWrite (c.clrBase + n) 0]
      seq := { s.seq with bitIndex := none, upc := s.seq.upc + 1 } } := by
  subst hs
  rw [perform_regWrite hm (regOf_clr hc hn), padsAfter, blockEvent_clr_zero hc _ hn, padChanges_self]
  simp [padsAfter]

/-- The pads see nothing of the two writes of zero and of `Unmap`. -/
theorem padsAfter_closeTail {c : Config} (h : c.Admissible) (b : Block) :
    padsAfter c b [.busWrite c.clrBase 0, .busWrite (c.clrBase + 1) 0, .unmap] = [] := by
  have h0 : blockEvent c b (.busWrite c.clrBase 0) = b := blockEvent_clr_zero h b (n := 0) (by decide)
  simp only [padsAfter, h0, blockEvent_clr_zero h b (n := 1) (by decide), padChanges_self, List.append_nil]

/-- The expansion of `CLOSE`, performed (R150). -/
theorem performAll_expandClose {s : State} (hc : s.cfg.Admissible) (hm : s.mapped = true) :
    ∃ q, performAll (expandClose s.cfg) s = .next { s with
      block := s.block.withLatches s.cfg.safeIdle
      busTrace := s.busTrace ++ ((s.cfg.safeIdle.map fun pl => levelEvent s.cfg pl.1 pl.2) ++
        [.busWrite s.cfg.clrBase 0, .busWrite (s.cfg.clrBase + 1) 0, .unmap])
      primTrace := s.primTrace ++ s.cfg.safeIdle.map fun pl => .setLevel pl.1 pl.2
      padTrace := s.padTrace ++ padsAfter s.cfg s.block (s.cfg.safeIdle.map fun pl => levelEvent s.cfg pl.1 pl.2)
      mapped := false
      life := .closed
      seq := q } := by
  obtain ⟨q, hq⟩ := (serialOf_safeIdle hc).performAll hc hm
  simp only [afterPrims_setLevels hc (safeIdle_lt_58 hc)] at hq
  refine ⟨{ q with bitIndex := none, upc := q.upc + 1 + 1 + 1 }, ?_⟩
  have hzero {n : Nat} (hn : n < 2) := @perform_clearZero _ hc n hn
  simp only [expandClose, performAll_append, hq, andThen_next, performAll_cons,
    hzero (n := 0) (by decide), hzero (n := 1) (by decide), hm]
  simp [perform, doOp, complete, unmapBlock, setBitIndex, advance]

/-- `CLOSE` in a ready state. -/
theorem exec_closeIface_ready {s : State} (h : s.Ready) :
    exec .closeIface s = .next { s with
      block := s.block.withLatches s.cfg.safeIdle
      busTrace := s.busTrace ++ ((s.cfg.safeIdle.map fun pl => levelEvent s.cfg pl.1 pl.2) ++
        [.busWrite s.cfg.clrBase 0, .busWrite (s.cfg.clrBase + 1) 0, .unmap])
      primTrace := s.primTrace ++ s.cfg.safeIdle.map fun pl => .setLevel pl.1 pl.2
      padTrace := s.padTrace ++ padsAfter s.cfg s.block (s.cfg.safeIdle.map fun pl => levelEvent s.cfg pl.1 pl.2)
      mapped := false
      life := .closed
      response := none } := by
  obtain ⟨q, hq⟩ := performAll_expandClose (s := accept .closeIface s) h.cfg h.mapped
  refine (exec_ready_performed (i := .closeIface) h rfl (by simp) hq).trans ?_
  simp only [finish, accept, ← h.idle]

/-- Settles O27: the next state of `exec_closeIface_ready`, its last three events moving no pad. -/
theorem closeDrivesSafeLevels : Obligations.CloseDrivesSafeLevels := by
  refine ⟨decode_encode_closeIface, fun s hs hl => exec_of_gate_refuse hs rfl (gateOf_notOpen (by simp) hl),
    fun s h => ?_⟩
  intro ls es
  have hpads : padsAfter s.cfg s.block es =
      padsAfter s.cfg s.block (ls.map fun pl => levelEvent s.cfg pl.1 pl.2) := by
    rw [padsAfter_append, padsAfter_closeTail h.cfg, List.append_nil]
  rw [exec_closeIface_ready h, hpads]

/-- Settles O28: its gate is the no-op. -/
theorem secondCloseIsNoOp : Obligations.SecondCloseIsNoOp := by
  intro s hs hl
  exact exec_of_gate_noOp hs rfl (by rw [hl]; rfl)

/-- Settles O29: the six pins are different, so each latch keeps the level written to it, and no function field moves. -/
theorem teardownLeavesSafeLevels : Obligations.TeardownLeavesSafeLevels := by
  intro s h
  refine ⟨_, exec_closeIface_ready h, fun pl hpl => ?_⟩
  obtain ⟨-, -, -, hdistinct, -⟩ := h.cfg
  have hlatch := withLatches_latch s.block s.cfg.safeIdle (safeIdle_lt_58 h.cfg) hdistinct pl hpl
  refine ⟨fun ho => ⟨fun n => ?_, ?_⟩, fun ho => ⟨hlatch, ?_⟩⟩
  · simp [Block.lev, ho, hlatch]
  · simp [Block.pad, ho, hlatch]
  · simp [Block.pad, ho]

end Sys2Proof.Machine
end

section
/-! SUPPORT. The Register Block word by word (spec/10_state.md section 1, spec/20_memory.md section 2): reads, writes
and refused accesses. -/

namespace Sys2Proof.Machine

/-! ### Ports that set and clear latches (R24, R25) -/

theorem levelOfBit_or (a x : Bool) : Level.ofBit (a || x) = if x = true then .high else Level.ofBit a := by
  cases x <;> simp [Level.ofBit]

theorem levelOfBit_and_not (a x : Bool) : Level.ofBit (a && !x) = if x = true then .low else Level.ofBit a := by
  cases x <;> simp [Level.ofBit]

theorem latch_write_set (b : Block) (n : Fin 2) (v : Word) {p : Nat} (hp : p < 58) :
    (b.write (.set n) v).latch p = if p / 32 = n ∧ v.getLsbD (p % 32) = true then .high else b.latch p := by
  simp [Block.latch, Block.write, latchBits_getLsbD n.isLt v hp, levelOfBit_or]

theorem latch_write_clr (b : Block) (n : Fin 2) (v : Word) {p : Nat} (hp : p < 58) :
    (b.write (.clr n) v).latch p = if p / 32 = n ∧ v.getLsbD (p % 32) = true then .low else b.latch p := by
  simp only [Block.latch, Block.write, BitVec.getLsbD_and, BitVec.getLsbD_not, hp, decide_true, Bool.true_and,
    latchBits_getLsbD n.isLt v hp, levelOfBit_and_not, Bool.and_eq_true, decide_eq_true_eq]

/-- A write of a listed word is that register's write (R63). -/
theorem regWrite_block {s : State} (hm : s.mapped = true) {w : Nat} {r : Reg} (hr : regOf s.cfg w = some r) (v : Word) :
    ∃ t, regWrite w v s = .next t ∧ t.cfg = s.cfg ∧ t.mapped = true ∧ t.block = s.block.write r v :=
  ⟨_, regWrite_listed v hm hr, rfl, hm, by simp [blockEvent, hr]⟩

/-- A read of a set or clear register draws its value and leaves the block (R24, R25). -/
theorem regRead_port {s : State} (hm : s.mapped = true) {w : Nat} {r : Reg} (hr : regOf s.cfg w = some r)
    (hv : s.block.read s.cfg s.draws r = Config.portDraw s.draws) :
    ∃ u, regRead w s = .next u ∧ u.seq.tmp = some (Config.portDraw s.draws) ∧ u.block = s.block :=
  ⟨_, regRead_listed hm hr, congrArg some hv, rfl⟩

/-- Settles O39: bit by bit, from `latch_write_set`. -/
theorem setPortSetsLatches : Obligations.SetPortSetsLatches := by
  intro s n v hc hm hn
  have hr := regOf_set hc hn
  obtain ⟨t, ht, -, -, hblock⟩ := regWrite_block hm hr v
  refine ⟨⟨t, ht, by rw [hblock]; rfl, fun p hp => ?_⟩, regRead_port hm hr rfl⟩
  rw [hblock, latch_write_set _ _ _ (Nat.lt_succ_of_le hp)]

/-- Settles O40: bit by bit, from `latch_write_clr`. -/
theorem clearPortClearsLatches : Obligations.ClearPortClearsLatches := by
  intro s n v hc hm hn
  have hr := regOf_clr hc hn
  refine ⟨⟨_, regWrite_listed v hm hr, ?_, fun p hp => ?_, ?_⟩, regRead_port hm hr rfl⟩
  · simp [blockEvent, hr, Block.write]
  · simp only [blockEvent, hr]
    exact latch_write_clr _ _ _ (Nat.lt_succ_of_le hp)
  · rintro rfl
    exact blockEvent_clr_zero hc _ hn

/-! ### The level registers (R26) -/

theorem levelWord_getLsbD (c : Config) (b : Block) (d n : Nat) {i : Nat} (hi : i < 32) :
    (b.levelWord c d n).getLsbD i = (decide (32 * n + i < 58) && (b.lev c d (32 * n + i)).toBit) := by
  rw [Block.levelWord, BitVec.getLsbD_ofFnLE, dif_pos hi]
  rfl

/-- Settles O41: the word read bit by bit; the write is the one that changes nothing. -/
theorem levelRegisterReadsLevels : Obligations.LevelRegisterReadsLevels := by
  intro s n v hc hm hn
  have hr := regOf_lev hc hn
  obtain ⟨u, hu, -, -, hblock⟩ := regWrite_block hm hr v
  refine ⟨⟨_, _, regRead_listed hm hr, rfl, rfl, rfl, fun i hi => ?_⟩, u, hu, hblock⟩
  rw [Block.read, levelWord_getLsbD _ _ _ _ hi]
  by_cases h : 32 * n + i ≤ 57
  · simp [h, Nat.lt_succ_of_le h]
  · simp [h, show ¬ 32 * n + i < 58 by omega]

/-! ### The function-select registers (R22, R23) -/

theorem fselWord_write_fsel (b : Block) (n : Fin 6) (v : Word) (k : Nat) :
    (b.write (.fsel n) v).fselWord k = if k = n then v &&& fselMask n else b.fselWord k := by
  by_cases hk : k = n
  · subst hk
    simp [Block.fselWord, Block.write, BitVec.and_assoc]
  · by_cases h6 : k < 6
    · simp [Block.fselWord, Block.write, h6, hk, Vector.getElem_set_ne _ _ (Ne.symm hk)]
    · simp [Block.fselWord, h6, hk]

/-- Settles O42: from `fselWord_write_fsel`, the read after the write being of the same register. -/
theorem functionSelectStorage : Obligations.FunctionSelectStorage := by
  intro s n v hc hm hn
  have hr := regOf_fsel hc hn
  obtain ⟨t, ht, hcfg, htm, hblock⟩ := regWrite_block hm hr v
  refine ⟨t, _, ht, by rw [hblock]; rfl, fun k hk => ?_, regRead_listed htm (hcfg ▸ hr), rfl, ?_⟩
  · rw [hblock, fselWord_write_fsel, if_neg hk]
  · simp only [Block.read, hblock, fselWord_write_fsel, if_pos, fselMask]
    rfl

/-! ### Accesses the block does not answer (R61, R66) -/

/-- Only the twelve words of the map name a register. -/
theorem mem_regWords_of_regOf {c : Config} {w : Nat} {r : Reg} (h : regOf c w = some r) : w ∈ c.regWords := by
  have h2 (n : Fin 2) : n.val = 0 ∨ n.val = 1 := by omega
  cases r with
  | fsel n =>
    have hw : w = n.val := regOf_word h
    simp only [Config.regWords, List.mem_cons]
    omega
  | set n =>
    have hw : w = c.setBase + n.val := regOf_word h
    rcases h2 n with hn | hn <;> simp [hw, hn, Config.regWords]
  | clr n =>
    have hw : w = c.clrBase + n.val := regOf_word h
    rcases h2 n with hn | hn <;> simp [hw, hn, Config.regWords]
  | lev n =>
    have hw : w = c.levBase + n.val := regOf_word h
    rcases h2 n with hn | hn <;> simp [hw, hn, Config.regWords]

/-- Settles O43: no register stands at such a word, and no access is answered while nothing is mapped. -/
theorem unlistedAndUnmappedRefused : Obligations.UnlistedAndUnmappedRefused := by
  intro s w v _
  refine ⟨fun hm hw => ?_, fun hm => ?_⟩
  · have hnone : regOf s.cfg w = none := by
      cases hr : regOf s.cfg w with
      | none => rfl
      | some r => exact absurd (mem_regWords_of_regOf hr) hw
    simp [regRead, regWrite, hm, hnone]
  · simp [regRead, regWrite, hm]

/-! ### Repeated writes (R68) -/

theorem write_write (b : Block) (r : Reg) (v : Word) : (b.write r v).write r v = b.write r v := by
  cases r with
  | fsel n => simp [Block.write]
  | set n => simp [Block.write, BitVec.or_assoc]
  | clr n => simp [Block.write, BitVec.and_assoc]
  | lev n => rfl

theorem blockEvent_write_write (c : Config) (b : Block) (w : Nat) (v : Word) :
    blockEvent c (blockEvent c b (.busWrite w v)) (.busWrite w v) = blockEvent c b (.busWrite w v) := by
  simp only [blockEvent]
  cases regOf c w with
  | none => rfl
  | some r => exact write_write b r v

/-- Settles O44, from `write_write`. -/
theorem writesIdempotent : Obligations.WritesIdempotent := by
  intro s t u w v ht hu
  obtain ⟨-, rfl⟩ := regWrite_next ht
  obtain ⟨-, rfl⟩ := regWrite_next hu
  exact blockEvent_write_write _ _ _ _

end Sys2Proof.Machine
end

section
/-! SUPPORT. The register control primitives (spec/40_register_primitives.md): GET_LEVEL (R127), what SET_FUNCTION
makes of the pads (R33, R121), and the patterns written to the set and clear registers (R235). -/

namespace Sys2Proof.Machine

/-! ### GET_LEVEL (R127) -/

@[simp] theorem levelOfBit_toBit (l : Level) : Level.ofBit l.toBit = l := by
  cases l <;> rfl

/-- The bit of a pin in the word read from its level register is the pin's level (R26, R95). -/
theorem levelWord_bit_of_pin (c : Config) (b : Block) (d : Nat) {p : Nat} (hp : p < 58) :
    Level.ofBit ((b.levelWord c d (wordIndex p)).getLsbD (bitInWord p)) = b.lev c d p := by
  have hpin : 32 * wordIndex p + bitInWord p = p := Nat.div_add_mod p 32
  have hbit : bitInWord p < 32 := Nat.mod_lt p (by decide)
  rw [levelWord_getLsbD c b d _ hbit, hpin]
  simp [hp]

theorem perform_microGetLevel {s : State} (hc : s.cfg.Admissible) (hm : s.mapped = true) {p : Nat} (hp : p < 58) :
    ∃ q, perform (microGetLevel s.cfg p) s = .next { s with
      busTrace := s.busTrace ++ [.busRead (levWord s.cfg p) (s.block.levelWord s.cfg s.draws (wordIndex p))]
      primTrace := s.primTrace ++ [.getLevel p (s.block.lev s.cfg s.draws p)]
      response := some (.level (s.block.lev s.cfg s.draws p))
      draws := s.draws + 1
      seq := q } := by
  have hw : wordIndex p < 2 := by simp only [wordIndex]; omega
  have hd : doOp (microGetLevel s.cfg p).op (setBitIndex none s) = _ :=
    regRead_listed (s := setBitIndex none s) hm (regOf_lev hc hw)
  have hl := levelWord_bit_of_pin s.cfg s.block s.draws hp
  refine ⟨{ s.seq with
    tmp := some (s.block.levelWord s.cfg s.draws (wordIndex p)), bitIndex := none, upc := s.seq.upc + 1 }, ?_⟩
  rw [perform, show (microGetLevel s.cfg p).bit = none from rfl, hd, andThen_next, ← hl]
  rfl

/-- `GET_LEVEL` in a ready state: one read, and the level of the pin at this draw. -/
theorem exec_getLevel_ready {s : State} (h : s.Ready) {pin : PinField} (hp : pin.toNat ≤ 57) :
    exec (.getLevel pin) s = .next { s with
      busTrace := s.busTrace ++
        [.busRead (levWord s.cfg pin.toNat) (s.block.levelWord s.cfg s.draws (wordIndex pin.toNat))]
      primTrace := s.primTrace ++ [.getLevel pin.toNat (s.block.lev s.cfg s.draws pin.toNat)]
      response := some (.level (s.block.lev s.cfg s.draws pin.toNat))
      draws := s.draws + 1 } := by
  obtain ⟨q, hq⟩ := perform_microGetLevel (s := accept (.getLevel pin) s) h.cfg h.mapped (Nat.lt_succ_of_le hp)
  refine (exec_ready_performed (i := .getLevel pin) h (wellFormed_of_pin_le_57 rfl hp) (by simp)
    (congrArg (andThen · _) hq)).trans ?_
  simp only [finish, accept, ← h.idle]

/-- Settles O37: the level of the pin is its latch or the level drawn. -/
theorem getLevelReadsLevel : Obligations.GetLevelReadsLevel := by
  intro p hp
  have hi : (Instr.getLevel p).WellFormed := wellFormed_of_pin_le_57 rfl hp
  exact ⟨decode_encode_getLevel hi, needsOpen_of_gateOpen hi fun _ => rfl, fun s h => exec_getLevel_ready h hp⟩

/-! ### SET_FUNCTION and the pads (R33, R121, R122) -/

/-- The pad of a pin whose latch is at level `l`, by the function it is given (R33). -/
def functionPad (l : Level) : PinFunction → Pad
  | .input => .undriven
  | .output => .driven l

/-- Only the pin whose function is set has its pad moved. -/
theorem withFunction_pad {c : Config} (h : c.Admissible) (b : Block) {p : Nat} (hp : p < 58) (q : Nat)
    (f : PinFunction) :
    (b.withFunction c p f).pad c q =
      if q = p then functionPad (b.latch p) f else b.pad c q := by
  have hne : c.fselInput ≠ c.fselOutput := h.1
  by_cases hq : q = p
  · subst hq
    cases f <;> simp [functionPad, Block.pad, Block.isOutput, withFunction_field c b hp, fnCode, npins, hp, hne]
  · simp [Block.pad, Block.isOutput, withFunction_field c b hp, hq]

/-- Settles O32: the fields, pads and words of `withFunction`. -/
theorem setFunctionRoundTrip : Obligations.SetFunctionRoundTrip := by
  intro s p f h hp
  have hlt : p.toNat < 58 := Nat.lt_succ_of_le hp
  refine ⟨_, exec_setFunction_ready h hp f, ?_, ?_, fun q _ hq => ?_, fun q _ hq => ?_, fun n hn => ?_, rfl⟩
  · rw [withFunction_field _ _ hlt, if_pos rfl]
    cases f <;> rfl
  · rw [withFunction_pad h.cfg _ hlt, if_pos rfl]
    cases f <;> rfl
  · rw [withFunction_pad h.cfg _ hlt, if_neg hq]
  · rw [withFunction_field _ _ hlt, if_neg hq]
  · exact (withFunction_fselWord _ _ hlt f n).trans (if_neg hn)

/-! ### Level writes (R126, R30) -/

/-- Settles O35: the latches and pads of `withLatch`. -/
theorem levelWriteFrame : Obligations.LevelWriteFrame := by
  intro s p l h hp
  have hlt : p.toNat < 58 := Nat.lt_succ_of_le hp
  refine ⟨_, exec_setLevelCommand_ready h hp l, fun q _ => withLatch_latch _ hlt l, withLatch_fsel _ _ _, ?_⟩
  rw [padChanges_withLatch _ _ hlt]

/-- An Output pin reads as its latch, whatever is drawn (R32). -/
theorem lev_of_isOutput {c : Config} {b : Block} {p : Nat} (h : b.isOutput c p = true) (n : Nat) :
    b.lev c n p = b.latch p := if_pos h

/-- A level write in a ready state leaves a ready state: what a further command needs to know of it. -/
theorem exec_setLevelCommand_again {s : State} (h : s.Ready) {pin : PinField} (hp : pin.toNat ≤ 57) (l : Level) :
    ∃ t, exec (setLevelCommand pin l) s = .next t ∧ t.Ready ∧ t.cfg = s.cfg ∧
      t.block = s.block.withLatch pin.toNat l ∧
      t.padTrace = s.padTrace ++ padChanges s.cfg s.block (s.block.withLatch pin.toNat l) :=
  ⟨_, exec_setLevelCommand_ready h hp l, ⟨h.opened, h.mapped, h.idle, h.cfg⟩, rfl, rfl, rfl⟩

/-- Settles O36: each command leaves a ready state, and the latch of `p` after both writes is the last one to it. -/
theorem levelIsolation : Obligations.LevelIsolation := by
  intro s p q l k h hp hq ho
  obtain ⟨t, ht, htr, htc, htb, -⟩ := exec_setLevelCommand_again h hp l
  obtain ⟨u, hu, hur, huc, hub, -⟩ := exec_setLevelCommand_again htr hq k
  refine ⟨t, u, _, ht, hu, exec_getLevel_ready hur hp, ?_⟩
  have hout : u.block.isOutput u.cfg p.toNat = true := by simpa [hub, htb, huc, htc] using ho
  have hlatch : u.block.latch p.toNat = if q = p then k else l := by
    rw [hub, htb, withLatch_latch _ (Nat.lt_succ_of_le hq), withLatch_latch _ (Nat.lt_succ_of_le hp), if_pos rfl]
    simp only [← BitVec.toNat_inj, eq_comm]
  rw [lev_of_isOutput hout, hlatch]

/-- Making a pin Output that is not, the one pad event is its own: undriven, then driven by its latch (R33, R44 a). -/
theorem padChanges_output {c : Config} (h : c.Admissible) {b : Block} {p : Nat} (hp : p < 58)
    (ho : b.isOutput c p = false) :
    padChanges c b (b.withFunction c p .output) = [.change p .undriven (.driven (b.latch p))] := by
  have hbefore : b.pad c p = .undriven := by simp [Block.pad, ho]
  have hafter : (b.withFunction c p .output).pad c p = .driven (b.latch p) := by
    rw [withFunction_pad h _ hp, if_pos rfl, functionPad]
  rw [padChanges_one c hp fun q hq => by rw [withFunction_pad h _ hp, if_neg hq], hbefore, hafter]
  rfl

/-- Settles O38: the write lands in the latch of a pin that drives no pad, and Output then drives it. -/
theorem hiddenLatchShowsWhenOutput : Obligations.HiddenLatchShowsWhenOutput := by
  intro s p l h hp ho
  have hlt : p.toNat < 58 := Nat.lt_succ_of_le hp
  obtain ⟨t, ht, htr, htc, htb, htp⟩ := exec_setLevelCommand_again h hp l
  have hout : t.block.isOutput t.cfg p.toNat = false := by simpa [htb, htc] using ho
  have hlatch : t.block.latch p.toNat = l := by rw [htb, withLatch_latch _ hlt, if_pos rfl]
  refine ⟨t, _, ht, ?_, by simp [Block.pad, hout], exec_setFunction_ready htr hp .output, ?_, ?_⟩
  · simp [htp, padChanges_withLatch _ _ hlt, ho]
  · rw [withFunction_pad htr.cfg _ hlt, if_pos rfl, functionPad, hlatch]
  · rw [padChanges_output htr.cfg hlt hout, hlatch]

/-! ### What is written to the set and clear registers (R235) -/

/-- A bus event that writes to a set or clear register only a one-bit pattern. -/
def OneBitAtPorts (c : Config) (e : BusEvent) : Prop :=
  ∀ w v, e = .busWrite w v → w ∈ [c.setBase, c.setBase + 1, c.clrBase, c.clrBase + 1] → ∃ k < 32, v = 1#32 <<< k

theorem oneBitAtPorts_levelEvent (c : Config) (p : Nat) (l : Level) : OneBitAtPorts c (levelEvent c p l) := by
  intro w v h _
  cases h
  exact ⟨bitInWord p, Nat.mod_lt p (by decide), rfl⟩

theorem oneBitAtPorts_busRead (c : Config) (w : Nat) (v : Word) : OneBitAtPorts c (.busRead w v) := by
  intro _ _ h
  cases h

theorem oneBitAtPorts_primBus (c : Config) (ps : List PrimEvent) :
    ∀ e ∈ ps.flatMap (primBus c), OneBitAtPorts c e := by
  intro e he
  obtain ⟨p, -, hp⟩ := List.mem_flatMap.mp he
  cases p with
  | setLevel p l => rw [List.mem_singleton.mp hp]; exact oneBitAtPorts_levelEvent c p l
  | delay n => rw [List.mem_singleton.mp hp]; intro _ _ h; cases h
  | setFunction p f => cases hp
  | getLevel p l => cases hp

/-- The write of `SET_FUNCTION` goes to a function-select register, which is no port. -/
theorem oneBitAtPorts_functionEvents {c : Config} (h : c.Admissible) {p : Nat} (hp : p < 58) (f : PinFunction)
    (v : Word) : ∀ e ∈ functionEvents c p f v, OneBitAtPorts c e := by
  have hapart := regWords_apart h
  have hport : fselWord p ∉ [c.setBase, c.setBase + 1, c.clrBase, c.clrBase + 1] := by
    simp only [List.mem_cons, List.not_mem_nil, or_false, fselWord, fselIndex]
    omega
  simp only [functionEvents, List.forall_mem_cons]
  refine ⟨oneBitAtPorts_busRead c _ _, fun w v h hw => ?_, by simp⟩
  cases h
  exact absurd hw hport

theorem oneBitAtPorts_outputEvents {c : Config} (h : c.Admissible) (b : Block) {ps : List Nat}
    (hps : ∀ p ∈ ps, p < 58) : ∀ e ∈ outputEvents c b ps, OneBitAtPorts c e := by
  induction ps generalizing b with
  | nil => simp [outputEvents]
  | cons p ps ih =>
    obtain ⟨hp, hrest⟩ := List.forall_mem_cons.mp hps
    exact List.forall_mem_append.mpr ⟨oneBitAtPorts_functionEvents h hp .output _, ih _ hrest⟩

/-- Every command but `OPEN` and `CLOSE` writes one-bit patterns to the ports, or nothing. -/
theorem exec_oneBitAtPorts {s : State} (h : s.Ready) {i : Instr} (hi : i.WellFormed) (ho : i ≠ .openIface)
    (hc : i ≠ .closeIface) :
    ∃ t es, exec i s = .next t ∧ t.busTrace = s.busTrace ++ es ∧ ∀ e ∈ es, OneBitAtPorts s.cfg e := by
  have hpin {pin : PinField} (hp : i.pin? = some pin) : pin.toNat ≤ 57 := pin_le_57_of_wellFormed hi hp
  have hserial {ps : List PrimEvent} (he : exec i s = .next (s.afterPrims ps)) :
      ∃ t es, exec i s = .next t ∧ t.busTrace = s.busTrace ++ es ∧ ∀ e ∈ es, OneBitAtPorts s.cfg e :=
    ⟨_, _, he, rfl, oneBitAtPorts_primBus s.cfg ps⟩
  have hlevel (pin : PinField) (l : Level) : ∀ e ∈ [levelEvent s.cfg pin.toNat l], OneBitAtPorts s.cfg e := by
    simpa using oneBitAtPorts_levelEvent s.cfg pin.toNat l
  cases i with
  | openIface => exact absurd rfl ho
  | closeIface => exact absurd rfl hc
  | setFunction pin fn =>
    exact ⟨_, _, exec_setFunction_ready h (hpin rfl) fn, rfl,
      oneBitAtPorts_functionEvents h.cfg (Nat.lt_succ_of_le (hpin rfl)) fn _⟩
  | pinSet pin => exact ⟨_, _, exec_setLevelCommand_ready h (hpin rfl) .high, rfl, hlevel pin .high⟩
  | pinClr pin => exact ⟨_, _, exec_setLevelCommand_ready h (hpin rfl) .low, rfl, hlevel pin .low⟩
  | getLevel pin =>
    exact ⟨_, _, exec_getLevel_ready h (hpin rfl), rfl, by simpa using oneBitAtPorts_busRead s.cfg _ _⟩
  | initPins =>
    exact ⟨_, _, exec_initPins_ready h, rfl,
      oneBitAtPorts_outputEvents h.cfg _ fun _ => lt_58_of_controlled h.cfg⟩
  | srWrite byte => exact hserial (exec_srWrite_ready h byte)
  | dispStart => exact hserial (exec_dispStart_ready h)
  | dispByte byte => exact hserial (exec_dispByte_ready h byte)
  | dispCmd byte => exact hserial (exec_dispCmd_ready h byte)

/-- The events of `CLOSE` are level writes, the two zeros and `Unmap`. -/
theorem closeEvents_oneBit_or_zero {c : Config} {w : Nat} {v : Word}
    (h : BusEvent.busWrite w v ∈ (c.safeIdle.map fun pl => levelEvent c pl.1 pl.2) ++
      [.busWrite c.clrBase 0, .busWrite (c.clrBase + 1) 0, .unmap]) : (∃ k < 32, v = 1#32 <<< k) ∨ v = 0 := by
  rcases List.mem_append.mp h with hlevel | htail
  · obtain ⟨pl, -, he⟩ := List.mem_map.mp hlevel
    cases he
    exact .inl ⟨bitInWord pl.1, Nat.mod_lt pl.1 (by decide), rfl⟩
  · simp only [List.mem_cons, BusEvent.busWrite.injEq, reduceCtorEq, List.not_mem_nil, or_false] at htail
    rcases htail with ⟨-, hv⟩ | ⟨-, hv⟩
    · exact .inr hv
    · exact .inr hv

/-- Settles O45: the events of each command, `OPEN` and an ill-formed command being refused. -/
theorem oneBitPatternsOnly : Obligations.OneBitPatternsOnly := by
  intro s t i h ht w v hmem hport
  have hnone {u : State} (hu : exec i s = .next u) (hbus : u.busTrace = s.busTrace) : False := by
    cases ht.symm.trans hu
    simp [hbus] at hmem
  by_cases hi : i.WellFormed
  · by_cases ho : i = .openIface
    · subst ho
      exact (hnone (exec_of_gate_refuse h.idle rfl (gateUnopened_of_ne_unopened (by simp [h.opened]))) rfl).elim
    · by_cases hc : i = .closeIface
      · subst hc
        cases ht.symm.trans (exec_closeIface_ready h)
        rw [List.drop_left] at hmem
        exact (closeEvents_oneBit_or_zero hmem).imp_right fun hv => ⟨rfl, hv⟩
      · obtain ⟨u, es, hu, hbus, hes⟩ := exec_oneBitAtPorts h hi ho hc
        cases ht.symm.trans hu
        rw [hbus, List.drop_left] at hmem
        exact .inl (hes _ hmem w v rfl hport)
  · have hs : s.seq.cur = none := by rw [h.idle]; rfl
    exact (hnone ((exec_eq_command i s).trans (command_illegal hs hi _ _)) rfl).elim

end Sys2Proof.Machine
end

section
/-! SUPPORT. Level writes and delays, line by line: what a list of them leaves in the latches and shows on the pads
follows, pin by pin, from the levels it writes to that pin (R30, R33, R126). -/

namespace Sys2Proof.Machine

/-! ### The Register Block and the pads a list of level writes and delays leaves -/

/-- The Register Block after them: the one of `State.afterPrims`. -/
def primBlock (c : Config) (b : Block) (ps : List PrimEvent) : Block := blockAfter c b (ps.flatMap (primBus c))

/-- The pad events of them: those `State.afterPrims` adds. -/
def primPads (c : Config) (b : Block) (ps : List PrimEvent) : List PadEvent := padsAfter c b (ps.flatMap (primBus c))

theorem afterPrims_block (s : State) (ps : List PrimEvent) :
    (s.afterPrims ps).block = primBlock s.cfg s.block ps := rfl

theorem afterPrims_padTrace (s : State) (ps : List PrimEvent) :
    (s.afterPrims ps).padTrace = s.padTrace ++ primPads s.cfg s.block ps := rfl

/-- Level writes of existing pins and delays only. -/
def Serial (ps : List PrimEvent) : Prop := ∀ e ∈ ps, isSerial e = true

theorem SerialOf.serial {c : Config} {ms : List Micro} {ps : List PrimEvent} (h : SerialOf c ms ps) : Serial ps := by
  obtain ⟨es, hes, -, rfl⟩ := h
  exact List.forall_mem_map.mpr hes

/-- A list of them is empty or begins with a level write or a delay. -/
theorem serial_cons {e : PrimEvent} {ps : List PrimEvent} (h : Serial (e :: ps)) :
    ((∃ p l, e = .setLevel p l ∧ p < 58) ∨ ∃ n, e = .delay n) ∧ Serial ps := by
  obtain ⟨he, hps⟩ := List.forall_mem_cons.mp h
  refine ⟨?_, hps⟩
  cases e with
  | setLevel p l => exact .inl ⟨p, l, rfl, of_decide_eq_true he⟩
  | delay n => exact .inr ⟨n, rfl⟩
  | setFunction p f => cases he
  | getLevel p l => cases he

theorem primBlock_append (c : Config) (b : Block) (ps qs : List PrimEvent) :
    primBlock c b (ps ++ qs) = primBlock c (primBlock c b ps) qs := by
  simp [primBlock, blockAfter_append]

theorem primPads_append (c : Config) (b : Block) (ps qs : List PrimEvent) :
    primPads c b (ps ++ qs) = primPads c b ps ++ primPads c (primBlock c b ps) qs := by
  simp [primPads, primBlock, padsAfter_append]

theorem primBlock_nil (c : Config) (b : Block) : primBlock c b [] = b := rfl

theorem primPads_nil (c : Config) (b : Block) : primPads c b [] = [] := rfl

theorem primPads_delay (c : Config) (b : Block) (n : Nat) (ps : List PrimEvent) :
    primPads c b (.delay n :: ps) = .delay n :: primPads c b ps := rfl

theorem primBlock_setLevel {c : Config} (h : c.Admissible) (b : Block) {p : Nat} (hp : p < 58) (l : Level)
    (ps : List PrimEvent) : primBlock c b (.setLevel p l :: ps) = primBlock c (b.withLatch p l) ps := by
  rw [← blockEvent_levelEvent h b hp l]
  rfl

theorem primPads_setLevel {c : Config} (h : c.Admissible) (b : Block) {p : Nat} (hp : p < 58) (l : Level)
    (ps : List PrimEvent) :
    primPads c b (.setLevel p l :: ps) =
      padChanges c b (b.withLatch p l) ++ primPads c (b.withLatch p l) ps := by
  rw [← blockEvent_levelEvent h b hp l]
  rfl

/-! ### The levels written to one pin -/

/-- The levels a list of events writes to pin `p`, in order. -/
def writesTo (p : Nat) : List PrimEvent → List Level
  | [] => []
  | .setLevel q l :: ps => if q = p then l :: writesTo p ps else writesTo p ps
  | .delay _ :: ps => writesTo p ps
  | .setFunction _ _ :: ps => writesTo p ps
  | .getLevel _ _ :: ps => writesTo p ps

theorem writesTo_append (p : Nat) (ps qs : List PrimEvent) :
    writesTo p (ps ++ qs) = writesTo p ps ++ writesTo p qs := by
  induction ps with
  | nil => rfl
  | cons e ps ih =>
    cases e with
    | setLevel q l => by_cases hq : q = p <;> simp [writesTo, hq, ih]
    | delay n => exact ih
    | setFunction q f => exact ih
    | getLevel q l => exact ih

theorem writesTo_flatMap {α : Type} (p : Nat) (f : α → List PrimEvent) (xs : List α) :
    writesTo p (xs.flatMap f) = xs.flatMap fun x => writesTo p (f x) := by
  induction xs with
  | nil => rfl
  | cons x xs ih => rw [List.flatMap_cons, writesTo_append, ih, List.flatMap_cons]

/-- A latch holds the last level written to its pin (R126). -/
theorem primBlock_latch {c : Config} (h : c.Admissible) {ps : List PrimEvent} (hps : Serial ps) (b : Block) (q : Nat) :
    (primBlock c b ps).latch q = (writesTo q ps).getLastD (b.latch q) := by
  induction ps generalizing b with
  | nil => rfl
  | cons e ps ih =>
    obtain ⟨⟨p, l, rfl, hp⟩ | ⟨n, rfl⟩, hrest⟩ := serial_cons hps
    · rw [primBlock_setLevel h b hp, ih hrest, withLatch_latch b hp]
      by_cases hq : q = p
      · simp only [writesTo, hq, if_pos, List.getLastD_cons]
      · simp only [writesTo, hq, Ne.symm hq, if_neg, not_false_iff]
    · exact ih hrest b

/-- No level write or delay touches a function-select word (R30). -/
theorem primBlock_fsel {c : Config} (h : c.Admissible) {ps : List PrimEvent} (hps : Serial ps) (b : Block) :
    (primBlock c b ps).fsel = b.fsel := by
  induction ps generalizing b with
  | nil => rfl
  | cons e ps ih =>
    obtain ⟨⟨p, l, rfl, hp⟩ | ⟨n, rfl⟩, hrest⟩ := serial_cons hps
    · rw [primBlock_setLevel h b hp, ih hrest, withLatch_fsel]
    · exact ih hrest b

theorem primBlock_isOutput {c : Config} (h : c.Admissible) {ps : List PrimEvent} (hps : Serial ps) (b : Block)
    (q : Nat) : (primBlock c b ps).isOutput c q = b.isOutput c q := by
  simp [Block.isOutput, Block.field, Block.fselWord, primBlock_fsel h hps]

theorem withLatches_fsel (b : Block) (ls : List (Nat × Level)) : (b.withLatches ls).fsel = b.fsel := by
  induction ls generalizing b with
  | nil => rfl
  | cons pl ls ih => rw [withLatches_cons, ih, withLatch_fsel]

/-- Two Register Blocks are one where every pin ends at the same level. -/
theorem primBlock_eq_withLatches {c : Config} (h : c.Admissible) {ps : List PrimEvent} (hps : Serial ps) (b : Block)
    (ls : List (Nat × Level)) (hlast : ∀ q, (writesTo q ps).getLastD (b.latch q) = (b.withLatches ls).latch q) :
    primBlock c b ps = b.withLatches ls :=
  Block.ext_latch ((primBlock_fsel h hps b).trans (withLatches_fsel b ls).symm) fun q _ =>
    (primBlock_latch h hps b q).trans (hlast q)

/-- The same writes once more leave the block as it is. -/
theorem primBlock_twice {c : Config} (h : c.Admissible) {ps : List PrimEvent} (hps : Serial ps) (b : Block) :
    primBlock c (primBlock c b ps) ps = primBlock c b ps := by
  refine Block.ext_latch (primBlock_fsel h hps _) fun q _ => ?_
  simp only [primBlock_latch h hps]
  cases writesTo q ps with
  | nil => rfl
  | cons l ls => simp only [List.getLastD_cons]

/-! ### The edges of one pad -/

/-- The pad events of one level write to an Output pin. -/
def edgeEvents (p : Nat) (old new : Level) : List PadEvent :=
  if old = new then [] else [.change p (.driven old) (.driven new)]

theorem padChanges_edgeEvents (c : Config) {b : Block} {p : Nat} (hp : p < 58) (ho : b.isOutput c p = true)
    (l : Level) : padChanges c b (b.withLatch p l) = edgeEvents p (b.latch p) l := by
  rw [padChanges_withLatch c b hp, edgeEvents]
  by_cases hl : b.latch p = l <;> simp [ho, hl]

/-- The changes of pin `p` in a pad trace, each as the pad before and after. -/
def padEdges (p : Nat) : List PadEvent → List (Pad × Pad)
  | [] => []
  | .change q old new :: es => if q = p then (old, new) :: padEdges p es else padEdges p es
  | .delay _ :: es => padEdges p es

theorem padEdges_append (p : Nat) (es fs : List PadEvent) : padEdges p (es ++ fs) = padEdges p es ++ padEdges p fs := by
  induction es with
  | nil => rfl
  | cons e es ih =>
    cases e with
    | change q old new => by_cases hq : q = p <;> simp [padEdges, hq, ih]
    | delay n => exact ih

theorem rises_eq_countP (p : Nat) (es : List PadEvent) :
    rises p es = (padEdges p es).countP fun e => isRise e.1 e.2 := by
  induction es with
  | nil => rfl
  | cons e es ih =>
    cases e with
    | change q old new => by_cases hq : q = p <;> simp [rises, padEdges, hq, ih, List.countP_cons, Nat.add_comm]
    | delay n => exact ih

theorem falls_eq_countP (p : Nat) (es : List PadEvent) :
    falls p es = (padEdges p es).countP fun e => isFall e.1 e.2 := by
  induction es with
  | nil => rfl
  | cons e es ih =>
    cases e with
    | change q old new => by_cases hq : q = p <;> simp [falls, padEdges, hq, ih, List.countP_cons, Nat.add_comm]
    | delay n => exact ih

/-- The changes of a driven line at level `l` to which levels are written. -/
def lineEdges (l : Level) : List Level → List (Pad × Pad)
  | [] => []
  | k :: ks => if l = k then lineEdges k ks else (.driven l, .driven k) :: lineEdges k ks

/-- An Output pin's pad follows the levels written to it, whatever is written to other pins. -/
theorem padEdges_primPads {c : Config} (h : c.Admissible) {ps : List PrimEvent} (hps : Serial ps) {b : Block} {p : Nat}
    (ho : b.isOutput c p = true) : padEdges p (primPads c b ps) = lineEdges (b.latch p) (writesTo p ps) := by
  induction ps generalizing b with
  | nil => rfl
  | cons e ps ih =>
    obtain ⟨⟨q, l, rfl, hq⟩ | ⟨n, rfl⟩, hrest⟩ := serial_cons hps
    · rw [primPads_setLevel h b hq, padEdges_append, ih hrest (by simpa using ho), padChanges_withLatch c b hq,
        withLatch_latch b hq]
      by_cases hqp : q = p
      · subst hqp
        by_cases hl : b.latch q = l <;> simp [padEdges, writesTo, lineEdges, ho, hl]
      · have hother : padEdges p (if b.isOutput c q = true ∧ b.latch q ≠ l
            then [.change q (.driven (b.latch q)) (.driven l)] else []) = [] := by
          split <;> simp [padEdges, hqp]
        simp [hother, writesTo, hqp, Ne.symm hqp]
    · exact ih hrest ho

end Sys2Proof.Machine
end

section
/-! SUPPORT. What SR_WRITE leaves (R161 to R164): its bus events without an edge delay, its end state, the edges on its
three pads and what the line monitor makes of them. -/

namespace Sys2Proof.Machine

/-! ### The three pins -/

theorem pinSrData_mem (c : Config) : c.pinSrData ∈ c.controlledPins := by simp [Config.controlledPins]

theorem pinSrShclk_mem (c : Config) : c.pinSrShclk ∈ c.controlledPins := by simp [Config.controlledPins]

theorem pinSrLatch_mem (c : Config) : c.pinSrLatch ∈ c.controlledPins := by simp [Config.controlledPins]

/-- They are three different pins (R12). -/
theorem srPins_distinct {c : Config} (h : c.Admissible) :
    c.pinSrData ≠ c.pinSrShclk ∧ c.pinSrData ≠ c.pinSrLatch ∧ c.pinSrShclk ≠ c.pinSrLatch := by
  obtain ⟨-, -, -, hdistinct, -⟩ := h
  simp only [Config.controlledPins, List.nodup_cons, List.mem_cons, not_or] at hdistinct
  obtain ⟨-, ⟨hclock, hlatch, -⟩, ⟨hclockLatch, -⟩, -⟩ := hdistinct
  exact ⟨hclock, hlatch, hclockLatch⟩

/-! ### Bus events (R161) -/

/-- The first word that drives a pin to a level. -/
def portBase (c : Config) : Level → Nat
  | .high => c.setBase
  | .low => c.clrBase

/-- The bus event of a level write to a pin below 32: one bit, to the first word (R95). -/
theorem levelEvent_of_lt_32 (c : Config) {p : Nat} (hp : p < 32) (l : Level) :
    levelEvent c p l = .busWrite (portBase c l) (1#32 <<< p) := by
  have hword : wordIndex p = 0 := Nat.div_eq_of_lt hp
  have hbit : bitInWord p = p := Nat.mod_eq_of_lt hp
  cases l <;> simp [levelEvent, levelWord, portBase, oneBit, hword, hbit]

theorem srEdgePrims_no_delay {c : Config} (he : c.srEdgeDelay = 0) (p : Nat) (l : Level) :
    srEdgePrims c p l = [.setLevel p l] := by
  simp [srEdgePrims, he]

/-- The bus events of the listing without an edge delay, write by write. -/
theorem srWritePrims_bus {c : Config} (he : c.srEdgeDelay = 0) (byte : Byte) :
    (srWritePrims c byte).flatMap (primBus c) =
      ((List.range 8).flatMap fun i => [levelEvent c c.pinSrData (bitLevel byte i),
        levelEvent c c.pinSrShclk .low, levelEvent c c.pinSrShclk .high]) ++
      [levelEvent c c.pinSrLatch .low, levelEvent c c.pinSrLatch .high] := by
  simp only [srWritePrims, srBitPrims, srEdgePrims_no_delay he, List.flatMap_append, List.flatMap_assoc,
    List.flatMap_cons, List.flatMap_nil, primBus, List.append_nil, List.append_assoc, List.cons_append, List.nil_append]

/-- Settles O47: the events of `srWritePrims_bus`, all three pins being below 32. -/
theorem srWriteBusTrace : Obligations.SrWriteBusTrace := by
  intro s byte h he one zero es
  have hdata := controlled_lt h.cfg (pinSrData_mem s.cfg)
  have hclock := controlled_lt h.cfg (pinSrShclk_mem s.cfg)
  have hlatch := controlled_lt h.cfg (pinSrLatch_mem s.cfg)
  have hbit (i : Nat) : levelEvent s.cfg s.cfg.pinSrData (bitLevel byte i) =
      if byte.getLsbD i then one s.cfg.pinSrData else zero s.cfg.pinSrData := by
    rw [levelEvent_of_lt_32 _ hdata, bitLevel, levelOfBit_eq_ite]
    cases byte.getLsbD i <;> rfl
  refine ⟨_, exec_srWrite_ready h byte, ?_, by simp [es]⟩
  show s.busTrace ++ (srWritePrims s.cfg byte).flatMap (primBus s.cfg) = s.busTrace ++ es
  rw [srWritePrims_bus he]
  simp only [hbit, levelEvent_of_lt_32 _ hclock, levelEvent_of_lt_32 _ hlatch, portBase, es, one, zero]

/-! ### The levels written to each pin (R160) -/

theorem serial_srWritePrims {c : Config} (h : c.Admissible) (byte : Byte) : Serial (srWritePrims c byte) :=
  (serialOf_expandSrWrite h byte).serial

theorem writesTo_srEdgePrims (q : Nat) (c : Config) (p : Nat) (l : Level) :
    writesTo q (srEdgePrims c p l) = if p = q then [l] else [] := by
  unfold srEdgePrims
  by_cases he : c.srEdgeDelay = 0 <;> simp [he, writesTo]

theorem writesTo_srData {c : Config} (h : c.Admissible) (byte : Byte) :
    writesTo c.pinSrData (srWritePrims c byte) = (List.range 8).flatMap fun i => [bitLevel byte i] := by
  obtain ⟨hclock, hlatch, -⟩ := srPins_distinct h
  simp [srWritePrims, srBitPrims, writesTo_append, writesTo_flatMap, writesTo_srEdgePrims, hclock.symm, hlatch.symm]

theorem writesTo_srShclk {c : Config} (h : c.Admissible) (byte : Byte) :
    writesTo c.pinSrShclk (srWritePrims c byte) = (List.range 8).flatMap fun _ => [.low, .high] := by
  obtain ⟨hdata, -, hlatch⟩ := srPins_distinct h
  simp [srWritePrims, srBitPrims, writesTo_append, writesTo_flatMap, writesTo_srEdgePrims, hdata, hlatch.symm]

theorem writesTo_srLatch {c : Config} (h : c.Admissible) (byte : Byte) :
    writesTo c.pinSrLatch (srWritePrims c byte) = [.low, .high] := by
  obtain ⟨-, hdata, hclock⟩ := srPins_distinct h
  simp [srWritePrims, srBitPrims, writesTo_append, writesTo_flatMap, writesTo_srEdgePrims, hdata, hclock]

theorem writesTo_srOther {c : Config} (byte : Byte) {q : Nat} (hdata : q ≠ c.pinSrData) (hclock : q ≠ c.pinSrShclk)
    (hlatch : q ≠ c.pinSrLatch) : writesTo q (srWritePrims c byte) = [] := by
  simp [srWritePrims, srBitPrims, writesTo_append, writesTo_flatMap, writesTo_srEdgePrims, hdata.symm, hclock.symm,
    hlatch.symm]

/-! ### The end state (R162) -/

/-- The Register Block after `SR_WRITE`, whatever it was before. -/
theorem primBlock_srWritePrims {c : Config} (h : c.Admissible) (b : Block) (byte : Byte) :
    primBlock c b (srWritePrims c byte) =
      b.withLatches [(c.pinSrData, bitLevel byte 7), (c.pinSrShclk, .high), (c.pinSrLatch, .high)] := by
  have hdata := lt_58_of_controlled h (pinSrData_mem c)
  have hclock := lt_58_of_controlled h (pinSrShclk_mem c)
  have hlatch := lt_58_of_controlled h (pinSrLatch_mem c)
  obtain ⟨hdc, hdl, hcl⟩ := srPins_distinct h
  refine primBlock_eq_withLatches h (serial_srWritePrims h byte) b _ fun q => ?_
  simp only [withLatches_cons, withLatches_nil, withLatch_latch _ hlatch, withLatch_latch _ hclock,
    withLatch_latch _ hdata]
  by_cases hql : q = c.pinSrLatch
  · subst hql
    rw [writesTo_srLatch h, if_pos rfl]
    rfl
  · by_cases hqc : q = c.pinSrShclk
    · subst hqc
      rw [writesTo_srShclk h, if_neg hql, if_pos rfl]
      rfl
    · by_cases hqd : q = c.pinSrData
      · subst hqd
        rw [writesTo_srData h, if_neg hql, if_neg hqc, if_pos rfl]
        rfl
      · rw [writesTo_srOther byte hqd hqc hql, if_neg hql, if_neg hqc, if_neg hqd]
        rfl

/-- Settles O48: the second call writes the same levels again. -/
theorem srWriteEndState : Obligations.SrWriteEndState := by
  intro s byte h
  have hblock : (s.afterPrims (srWritePrims s.cfg byte)).block = _ := primBlock_srWritePrims h.cfg s.block byte
  refine ⟨_, _, _, exec_srWrite_ready h byte, ?_, rfl, exec_srWrite_ready (h.afterPrims _) byte, ?_, rfl⟩
  · rw [hblock, bitLevel, levelOfBit_eq_ite]
  · exact primBlock_twice h.cfg (serial_srWritePrims h.cfg byte) s.block

/-! ### The edges (R163) -/

theorem srShclk_edges {c : Config} (h : c.Admissible) (byte : Byte) {b : Block}
    (ho : b.isOutput c c.pinSrShclk = true) :
    rises c.pinSrShclk (primPads c b (srWritePrims c byte)) = 8 ∧
    falls c.pinSrShclk (primPads c b (srWritePrims c byte)) =
      if b.latch c.pinSrShclk = .high then 8 else 7 := by
  rw [rises_eq_countP, falls_eq_countP, padEdges_primPads h (serial_srWritePrims h byte) ho, writesTo_srShclk h]
  cases b.latch c.pinSrShclk <;> decide

theorem srLatch_edges {c : Config} (h : c.Admissible) (byte : Byte) {b : Block}
    (ho : b.isOutput c c.pinSrLatch = true) :
    rises c.pinSrLatch (primPads c b (srWritePrims c byte)) = 1 ∧
    falls c.pinSrLatch (primPads c b (srWritePrims c byte)) =
      if b.latch c.pinSrLatch = .high then 1 else 0 := by
  rw [rises_eq_countP, falls_eq_countP, padEdges_primPads h (serial_srWritePrims h byte) ho, writesTo_srLatch h]
  cases b.latch c.pinSrLatch <;> decide

/-- Settles O49: each clock line by the levels written to it. -/
theorem srWriteEdges : Obligations.SrWriteEdges := by
  intro s byte h ho
  obtain ⟨hclockRises, hclockFalls⟩ := srShclk_edges h.cfg byte (ho s.cfg.pinSrShclk (by simp))
  obtain ⟨hlatchRises, hlatchFalls⟩ := srLatch_edges h.cfg byte (ho s.cfg.pinSrLatch (by simp))
  exact ⟨_, _, exec_srWrite_ready h byte, afterPrims_padTrace s _, hclockRises, hlatchRises, hclockFalls, hlatchFalls⟩

/-! ### The line monitor (R164) -/

theorem SrMonitor.watch_append (c : Config) (m : SrMonitor) (es fs : List PadEvent) :
    m.watch c (es ++ fs) = (m.watch c es).watch c fs := List.foldl_append

/-- The pad events of `SET_LEVEL(p, l) ; Delay(e)` on an Output pin, as the monitor sees them: it ignores the delay. -/
theorem SrMonitor.watch_srEdge {c : Config} (h : c.Admissible) (m : SrMonitor) {b : Block} {p : Nat} (hp : p < 58)
    (ho : b.isOutput c p = true) (l : Level) :
    m.watch c (primPads c b (srEdgePrims c p l)) =
      if b.latch p = l then m else m.see c (.change p (.driven (b.latch p)) (.driven l)) := by
  have hdelay (m : SrMonitor) : m.watch c (primPads c (b.withLatch p l)
      (if c.srEdgeDelay = 0 then [] else [.delay c.srEdgeDelay])) = m := by
    split <;> rfl
  rw [srEdgePrims, primPads_setLevel h b hp, padChanges_edgeEvents c hp ho, SrMonitor.watch_append, hdelay, edgeEvents]
  split <;> rfl

/-- A data bit: the monitor's data pad is the pin's. -/
theorem SrMonitor.watch_data {c : Config} (h : c.Admissible) {m : SrMonitor} {b : Block}
    (ho : b.isOutput c c.pinSrData = true) (hm : m.data = b.pad c c.pinSrData) (l : Level) :
    m.watch c (primPads c b (srEdgePrims c c.pinSrData l)) = { m with data := .driven l } := by
  rw [SrMonitor.watch_srEdge h m (lt_58_of_controlled h (pinSrData_mem c)) ho]
  split
  · next hl =>
    rw [Block.pad, if_pos ho, hl] at hm
    rw [← hm]
  · simp [SrMonitor.see]

/-- A pulse on a clock line, Low then High from any level: of its edges only the rise has a meaning. -/
theorem SrMonitor.watch_pulse {c : Config} (h : c.Admissible) (m : SrMonitor) {b : Block} {p : Nat} (hp : p < 58)
    (ho : b.isOutput c p = true) (hfall : m.see c (.change p (.driven .high) (.driven .low)) = m) :
    m.watch c (primPads c b (srEdgePrims c p .low ++ srEdgePrims c p .high)) =
      m.see c (.change p (.driven .low) (.driven .high)) := by
  have hserial : Serial (srEdgePrims c p .low) := (serialOf_srEdge c 0 hp .low).serial
  have hlow : (primBlock c b (srEdgePrims c p .low)).latch p = .low := by
    rw [primBlock_latch h hserial, writesTo_srEdgePrims, if_pos rfl]
    rfl
  have hout : (primBlock c b (srEdgePrims c p .low)).isOutput c p = true := by
    rw [primBlock_isOutput h hserial, ho]
  rw [primPads_append, SrMonitor.watch_append, SrMonitor.watch_srEdge h m hp ho, SrMonitor.watch_srEdge h _ hp hout,
    hlow, if_neg (by decide)]
  cases hb : b.latch p
  · rfl
  · rw [if_neg (by decide), hfall]

/-- Iteration `i` of the loop: one level sampled, which is bit `i`. -/
theorem SrMonitor.watch_srBit {c : Config} (h : c.Admissible) {m : SrMonitor} {b : Block}
    (hdata : b.isOutput c c.pinSrData = true) (hclock : b.isOutput c c.pinSrShclk = true)
    (hm : m.data = b.pad c c.pinSrData) (byte : Byte) (i : Nat) :
    m.watch c (primPads c b (srBitPrims c byte i)) =
      ⟨.driven (bitLevel byte i), m.shifted ++ [.driven (bitLevel byte i)], m.latched⟩ := by
  obtain ⟨hdc, -, -⟩ := srPins_distinct h
  have hserial := (serialOf_srEdge c i (lt_58_of_controlled h (pinSrData_mem c)) (bitLevel byte i)).serial
  have hout : (primBlock c b (srEdgePrims c c.pinSrData (bitLevel byte i))).isOutput c c.pinSrShclk = true := by
    rw [primBlock_isOutput h hserial, hclock]
  rw [srBitPrims, List.append_assoc, primPads_append, SrMonitor.watch_append, SrMonitor.watch_data h hdata hm,
    SrMonitor.watch_pulse h _ (lt_58_of_controlled h (pinSrShclk_mem c)) hout
      (by simp [SrMonitor.see, hdc.symm, isRise])]
  simp [SrMonitor.see, hdc.symm, isRise]

theorem serial_srBits {c : Config} (h : c.Admissible) (byte : Byte) (is : List Nat) :
    Serial (is.flatMap (srBitPrims c byte)) := (SerialOf.flatMap (serialOf_srBit h byte) is).serial

/-- The data pad after iteration `i`. -/
theorem primBlock_srBit_pad {c : Config} (h : c.Admissible) {b : Block} (hdata : b.isOutput c c.pinSrData = true)
    (byte : Byte) (i : Nat) :
    (primBlock c b (srBitPrims c byte i)).pad c c.pinSrData = .driven (bitLevel byte i) := by
  obtain ⟨hdc, -, -⟩ := srPins_distinct h
  have hserial := (serialOf_srBit h byte i).serial
  have hwrites : writesTo c.pinSrData (srBitPrims c byte i) = [bitLevel byte i] := by
    simp [srBitPrims, writesTo_append, writesTo_srEdgePrims, hdc.symm]
  rw [Block.pad, primBlock_isOutput h hserial, if_pos hdata, primBlock_latch h hserial, hwrites]
  rfl

/-- The loop: the bits sampled in order, and the monitor's data pad still the pin's. -/
theorem SrMonitor.watch_srBits {c : Config} (h : c.Admissible) (byte : Byte) (is : List Nat) {m : SrMonitor}
    {b : Block} (hdata : b.isOutput c c.pinSrData = true) (hclock : b.isOutput c c.pinSrShclk = true)
    (hm : m.data = b.pad c c.pinSrData) :
    m.watch c (primPads c b (is.flatMap (srBitPrims c byte))) =
      ⟨(primBlock c b (is.flatMap (srBitPrims c byte))).pad c c.pinSrData,
        m.shifted ++ is.map fun i => .driven (bitLevel byte i), m.latched⟩ := by
  induction is generalizing m b with
  | nil => simp [primPads_nil, primBlock_nil, SrMonitor.watch, ← hm]
  | cons i is ih =>
    have hserial := (serialOf_srBit h byte i).serial
    rw [List.flatMap_cons, primPads_append, SrMonitor.watch_append, SrMonitor.watch_srBit h hdata hclock hm,
      ih (by rw [primBlock_isOutput h hserial, hdata]) (by rw [primBlock_isOutput h hserial, hclock])
        (primBlock_srBit_pad h hdata byte i).symm, primBlock_append]
    simp

/-- The latch pulse leaves the data pad. -/
theorem primBlock_latchPulse_pad {c : Config} (h : c.Admissible) (b : Block) :
    (primBlock c b (srEdgePrims c c.pinSrLatch .low ++ srEdgePrims c c.pinSrLatch .high)).pad c c.pinSrData =
      b.pad c c.pinSrData := by
  obtain ⟨-, hdl, -⟩ := srPins_distinct h
  have hlatch := lt_58_of_controlled h (pinSrLatch_mem c)
  have hserial := ((serialOf_srEdge c 8 hlatch .low).append (serialOf_srEdge c 8 hlatch .high)).serial
  have hwrites : writesTo c.pinSrData (srEdgePrims c c.pinSrLatch .low ++ srEdgePrims c c.pinSrLatch .high) = [] := by
    simp [writesTo_append, writesTo_srEdgePrims, hdl.symm]
  rw [Block.pad, Block.pad, primBlock_isOutput h hserial, primBlock_latch h hserial, hwrites]
  rfl

/-- The eight levels of a byte, the last eight sampled after the loop. -/
theorem drop_before_byte (shifted : List Pad) (byte : Byte) :
    (shifted ++ (List.range 8).map fun i => Pad.driven (bitLevel byte i)).drop
      ((shifted ++ (List.range 8).map fun i => Pad.driven (bitLevel byte i)).length - 8) =
    (List.range 8).map fun i => Pad.driven (bitLevel byte i) := by
  rw [List.length_append, List.length_map, List.length_range, Nat.add_sub_cancel, List.drop_left]

/-- `SR_WRITE` as the monitor sees it: eight samples, one byte latched. -/
theorem SrMonitor.watch_srWritePrims {c : Config} (h : c.Admissible) (byte : Byte) {m : SrMonitor} {b : Block}
    (hdata : b.isOutput c c.pinSrData = true) (hclock : b.isOutput c c.pinSrShclk = true)
    (hlatch : b.isOutput c c.pinSrLatch = true) (hm : m.data = b.pad c c.pinSrData) :
    m.watch c (primPads c b (srWritePrims c byte)) =
      ⟨(primBlock c b (srWritePrims c byte)).pad c c.pinSrData,
        m.shifted ++ (List.range 8).map (fun i => .driven (bitLevel byte i)),
        m.latched ++ [(List.range 8).map fun i => .driven (bitLevel byte i)]⟩ := by
  obtain ⟨-, hdl, hcl⟩ := srPins_distinct h
  have hout : (primBlock c b ((List.range 8).flatMap (srBitPrims c byte))).isOutput c c.pinSrLatch = true := by
    rw [primBlock_isOutput h (serial_srBits h byte _), hlatch]
  rw [srWritePrims, List.append_assoc, primPads_append, SrMonitor.watch_append,
    SrMonitor.watch_srBits h byte _ hdata hclock hm,
    SrMonitor.watch_pulse h _ (lt_58_of_controlled h (pinSrLatch_mem c)) hout
      (by simp [SrMonitor.see, hdl.symm, hcl.symm, isRise]),
    primBlock_append, primBlock_latchPulse_pad h]
  simp only [SrMonitor.see, hdl.symm, hcl.symm, isRise, if_neg, if_pos, not_false_iff, decide_true, Bool.and_self,
    drop_before_byte]

/-- Settles O50, from `watch_srWritePrims`, the level of a bit as the statement gives it. -/
theorem srMonitorLatchesByte : Obligations.SrMonitorLatchesByte := by
  intro s byte m h ho hm
  refine ⟨_, _, exec_srWrite_ready h byte, afterPrims_padTrace s _, ?_⟩
  have hwatch := SrMonitor.watch_srWritePrims h.cfg byte (ho s.cfg.pinSrData (by simp))
    (ho s.cfg.pinSrShclk (by simp)) (ho s.cfg.pinSrLatch (by simp)) hm
  simpa only [afterPrims_block, bitLevel, levelOfBit_eq_ite] using hwatch

end Sys2Proof.Machine
end

section
/-! SUPPORT. What the display commands leave (R172, R174, R176, R180): the levels written to the two lines, what the line
monitor makes of them, and the delays; and the number of micro-operations of every command (R110). -/

namespace Sys2Proof.Machine

/-! ### The levels written to the two lines (R171, R173, R175) -/

/-- The clock and the data line are two pins (R12). -/
theorem dispPins_distinct {c : Config} (h : c.Admissible) : c.pinDispData ≠ c.pinDispClk := by
  obtain ⟨-, -, -, hdistinct, -⟩ := h
  simp only [Config.controlledPins, List.nodup_cons, List.mem_cons, not_or] at hdistinct
  obtain ⟨-, -, -, -, ⟨hne, -⟩, -⟩ := hdistinct
  exact hne

theorem serial_dispStartPrims {c : Config} (h : c.Admissible) : Serial (dispStartPrims c) :=
  (serialOf_expandDispStart h).serial

theorem serial_dispBytePrims {c : Config} (h : c.Admissible) (byte : Byte) : Serial (dispBytePrims c byte) :=
  (serialOf_expandDispByte h byte).serial

theorem serial_dispCmdPrims {c : Config} (h : c.Admissible) (byte : Byte) : Serial (dispCmdPrims c byte) :=
  (serialOf_expandDispCmd h byte).serial

/-- The levels of the nine clock pulses of a byte. -/
def ninePulses : List Level := (List.range 9).flatMap fun _ => [Level.low, Level.high]

section
variable {c : Config} (h : c.Admissible)
include h

theorem writesTo_clk_dispStart : writesTo c.pinDispClk (dispStartPrims c) = [.high, .low] := by
  simp [dispStartPrims, dispEdgePrims, writesTo, dispPins_distinct h]

theorem writesTo_data_dispStart : writesTo c.pinDispData (dispStartPrims c) = [.high, .low] := by
  simp [dispStartPrims, dispEdgePrims, writesTo, (dispPins_distinct h).symm]

theorem writesTo_clk_dispClocked (l : Level) : writesTo c.pinDispClk (dispClockedPrims c l) = [.low, .high] := by
  simp [dispClockedPrims, dispEdgePrims, writesTo, dispPins_distinct h]

theorem writesTo_data_dispClocked (l : Level) : writesTo c.pinDispData (dispClockedPrims c l) = [l] := by
  simp [dispClockedPrims, dispEdgePrims, writesTo, (dispPins_distinct h).symm]

theorem writesTo_clk_dispByte (byte : Byte) : writesTo c.pinDispClk (dispBytePrims c byte) = ninePulses := by
  simp only [dispBytePrims, writesTo_append, writesTo_flatMap, writesTo_clk_dispClocked h]
  rfl

theorem writesTo_data_dispByte (byte : Byte) :
    writesTo c.pinDispData (dispBytePrims c byte) = ((List.range 8).flatMap fun i => [bitLevel byte i]) ++ [.high] := by
  simp only [dispBytePrims, writesTo_append, writesTo_flatMap, writesTo_data_dispClocked h]

theorem writesTo_clk_dispCmd (byte : Byte) :
    writesTo c.pinDispClk (dispCmdPrims c byte) = [Level.high, Level.low] ++ ninePulses ++ [Level.high, Level.low] := by
  simp only [dispCmdPrims, writesTo_append, writesTo_clk_dispStart h, writesTo_clk_dispByte h]

end

/-- A pin that is neither line. -/
theorem writesTo_other_dispStart {c : Config} {q : Nat} (hclk : q ≠ c.pinDispClk) (hdata : q ≠ c.pinDispData) :
    writesTo q (dispStartPrims c) = [] := by
  simp [dispStartPrims, dispEdgePrims, writesTo, hclk.symm, hdata.symm]

theorem writesTo_other_dispByte {c : Config} (byte : Byte) {q : Nat} (hclk : q ≠ c.pinDispClk)
    (hdata : q ≠ c.pinDispData) : writesTo q (dispBytePrims c byte) = [] := by
  simp [dispBytePrims, dispClockedPrims, dispEdgePrims, writesTo_append, writesTo_flatMap, writesTo, hclk.symm,
    hdata.symm]

/-! ### The end states (R172, R174, R176) -/

/-- A list of level writes and delays that writes to the two lines only, by the last level of each. -/
theorem primBlock_twoLines {c : Config} (h : c.Admissible) {ps : List PrimEvent} (hps : Serial ps) (b : Block)
    {k l : Level} (hclk : (writesTo c.pinDispClk ps).getLastD (b.latch c.pinDispClk) = k)
    (hdata : (writesTo c.pinDispData ps).getLastD (b.latch c.pinDispData) = l)
    (hother : ∀ q, q ≠ c.pinDispClk → q ≠ c.pinDispData → writesTo q ps = []) :
    primBlock c b ps = b.withLatches [(c.pinDispClk, k), (c.pinDispData, l)] := by
  refine primBlock_eq_withLatches h hps b _ fun q => ?_
  simp only [withLatches_cons, withLatches_nil, withLatch_latch _ (pinDispData_lt_58 h),
    withLatch_latch _ (pinDispClk_lt_58 h)]
  by_cases hqd : q = c.pinDispData
  · rw [if_pos hqd, hqd, hdata]
  · by_cases hqc : q = c.pinDispClk
    · rw [if_neg hqd, if_pos hqc, hqc, hclk]
    · rw [if_neg hqd, if_neg hqc, hother q hqc hqd]
      rfl

theorem primBlock_dispStart {c : Config} (h : c.Admissible) (b : Block) :
    primBlock c b (dispStartPrims c) = b.withLatches [(c.pinDispClk, .low), (c.pinDispData, .low)] :=
  primBlock_twoLines h (serial_dispStartPrims h) b (by rw [writesTo_clk_dispStart h]; rfl)
    (by rw [writesTo_data_dispStart h]; rfl) fun _ => writesTo_other_dispStart

theorem primBlock_dispByte {c : Config} (h : c.Admissible) (b : Block) (byte : Byte) :
    primBlock c b (dispBytePrims c byte) = b.withLatches [(c.pinDispClk, .high), (c.pinDispData, .high)] :=
  primBlock_twoLines h (serial_dispBytePrims h byte) b (by rw [writesTo_clk_dispByte h]; rfl)
    (by rw [writesTo_data_dispByte h, List.getLastD_concat]) fun _ => writesTo_other_dispByte byte

theorem primBlock_dispCmd {c : Config} (h : c.Admissible) (b : Block) (byte : Byte) :
    primBlock c b (dispCmdPrims c byte) = b.withLatches [(c.pinDispClk, .low), (c.pinDispData, .low)] :=
  primBlock_twoLines h (serial_dispCmdPrims h byte) b (by rw [writesTo_clk_dispCmd h]; rfl)
    (by rw [dispCmdPrims, writesTo_append, writesTo_data_dispStart h, List.append_cons, List.getLastD_concat])
    fun _ hclk hdata => by
      simp only [dispCmdPrims, writesTo_append, writesTo_other_dispStart hclk hdata,
        writesTo_other_dispByte byte hclk hdata, List.append_nil]

/-! ### The line monitor, write by write (R178) -/

/-- The monitor as it would follow the levels written, both lines being Output: a write that changes no level changes
nothing it can see. -/
def DispMonitor.follow (c : Config) (m : DispMonitor) : PrimEvent → DispMonitor
  | .setLevel p l =>
    if p = c.pinDispData then
      if m.data = .driven .high ∧ l = .low ∧ m.clock = .driven .high then
        { m with data := .driven l, bits := [], frames := m.frames ++ [m.bits] }
      else { m with data := .driven l }
    else if p = c.pinDispClk then
      if m.clock = .driven .low ∧ l = .high then { m with clock := .driven l, bits := m.bits ++ [m.data] }
      else { m with clock := .driven l }
    else m
  | .delay _ => m
  | .setFunction _ _ => m
  | .getLevel _ _ => m

/-- The monitor's two pads are those of the Register Block, and both are driven. -/
structure DispMonitor.Tracks (c : Config) (m : DispMonitor) (b : Block) : Prop where
  clkOutput : b.isOutput c c.pinDispClk = true
  dataOutput : b.isOutput c c.pinDispData = true
  clock : m.clock = .driven (b.latch c.pinDispClk)
  data : m.data = .driven (b.latch c.pinDispData)

/-- A level write, as the pads show it, and as the monitor follows it. -/
theorem DispMonitor.watch_withLatch {c : Config} (h : c.Admissible) {m : DispMonitor} {b : Block}
    (ht : m.Tracks c b) {p : Nat} (hp : p < 58) (l : Level) :
    m.watch c (padChanges c b (b.withLatch p l)) = m.follow c (.setLevel p l) := by
  obtain ⟨hclkOut, hdataOut, hclock, hdata⟩ := ht
  have hne := dispPins_distinct h
  obtain ⟨clock, data, bits, frames⟩ := m
  simp only at hclock hdata
  subst hclock hdata
  rw [padChanges_withLatch c b hp]
  by_cases hpd : p = c.pinDispData
  · subst hpd
    cases hb : b.latch c.pinDispData <;> cases l <;>
      simp [DispMonitor.watch, DispMonitor.see, DispMonitor.follow, hdataOut, isFall]
  · by_cases hpc : p = c.pinDispClk
    · subst hpc
      cases hb : b.latch c.pinDispClk <;> cases l <;>
        simp [DispMonitor.watch, DispMonitor.see, DispMonitor.follow, hclkOut, isRise, hne.symm]
    · split <;> simp [DispMonitor.watch, DispMonitor.see, DispMonitor.follow, hpd, hpc]

theorem DispMonitor.Tracks.follow {c : Config} (h : c.Admissible) {m : DispMonitor} {b : Block} (ht : m.Tracks c b)
    {p : Nat} (hp : p < 58) (l : Level) : (m.follow c (.setLevel p l)).Tracks c (b.withLatch p l) := by
  obtain ⟨hclkOut, hdataOut, hclock, hdata⟩ := ht
  have hne := dispPins_distinct h
  refine ⟨by simpa using hclkOut, by simpa using hdataOut, ?_, ?_⟩
  · rw [withLatch_latch b hp]
    by_cases hpd : p = c.pinDispData
    · subst hpd
      simp only [DispMonitor.follow, if_pos, if_neg hne.symm]
      split <;> exact hclock
    · by_cases hpc : p = c.pinDispClk
      · subst hpc
        simp only [DispMonitor.follow, if_pos, if_neg hpd]
        split <;> rfl
      · simp [DispMonitor.follow, hpd, hpc, Ne.symm hpc, hclock]
  · rw [withLatch_latch b hp]
    by_cases hpd : p = c.pinDispData
    · subst hpd
      simp only [DispMonitor.follow, if_pos]
      split <;> rfl
    · by_cases hpc : p = c.pinDispClk
      · subst hpc
        simp only [DispMonitor.follow, if_pos, if_neg hne, if_neg hpd]
        split <;> exact hdata
      · simp [DispMonitor.follow, hpd, hpc, Ne.symm hpd, hdata]

theorem DispMonitor.watch_append (c : Config) (m : DispMonitor) (es fs : List PadEvent) :
    m.watch c (es ++ fs) = (m.watch c es).watch c fs := List.foldl_append

/-- Over the pads of a list of level writes and delays the monitor does what it does following the writes. -/
theorem DispMonitor.watch_primPads {c : Config} (h : c.Admissible) {ps : List PrimEvent} (hps : Serial ps)
    {m : DispMonitor} {b : Block} (ht : m.Tracks c b) :
    m.watch c (primPads c b ps) = ps.foldl (DispMonitor.follow c) m := by
  induction ps generalizing m b with
  | nil => rfl
  | cons e ps ih =>
    obtain ⟨⟨p, l, rfl, hp⟩ | ⟨n, rfl⟩, hrest⟩ := serial_cons hps
    · rw [primPads_setLevel h b hp, DispMonitor.watch_append, DispMonitor.watch_withLatch h ht hp,
        ih hrest (ht.follow h hp l), List.foldl_cons]
    · exact ih hrest ht

/-- `DISP_START` from driven lines: one marker, before it one more sample if the clock was Low. -/
theorem follow_dispStart {c : Config} (h : c.Admissible) (k d : Level) (bits : List Pad) (frames : List (List Pad)) :
    (dispStartPrims c).foldl (DispMonitor.follow c) ⟨.driven k, .driven d, bits, frames⟩ =
      ⟨.driven .low, .driven .low, [], frames ++ [bits ++ if k = .low then [.driven d] else []]⟩ := by
  have hne := dispPins_distinct h
  cases k <;> cases d <;> simp [dispStartPrims, dispEdgePrims, DispMonitor.follow, hne.symm]

/-- One clocked bit: one sample, and no marker, the data line moving while the clock is Low. -/
theorem follow_dispClocked {c : Config} (h : c.Admissible) (l : Level) (m : DispMonitor) :
    (dispClockedPrims c l).foldl (DispMonitor.follow c) m =
      ⟨.driven .high, .driven l, m.bits ++ [.driven l], m.frames⟩ := by
  have hne := dispPins_distinct h
  simp [dispClockedPrims, dispEdgePrims, DispMonitor.follow, hne.symm]

/-- The loop: one sample per bit, in order. -/
theorem follow_dispBits {c : Config} (h : c.Admissible) (byte : Byte) (is : List Nat) (m : DispMonitor) :
    ((is.flatMap fun i => dispClockedPrims c (bitLevel byte i)).foldl (DispMonitor.follow c) m).bits =
      m.bits ++ is.map (fun i => .driven (bitLevel byte i)) ∧
    ((is.flatMap fun i => dispClockedPrims c (bitLevel byte i)).foldl (DispMonitor.follow c) m).frames = m.frames := by
  induction is generalizing m with
  | nil => simp
  | cons i is ih =>
    rw [List.flatMap_cons, List.foldl_append, follow_dispClocked h]
    obtain ⟨hbits, hframes⟩ :=
      ih ⟨.driven .high, .driven (bitLevel byte i), m.bits ++ [.driven (bitLevel byte i)], m.frames⟩
    exact ⟨hbits.trans (List.append_cons _ _ _).symm, hframes⟩

/-- The nine samples of a byte: its bits, and the High of the acknowledge pulse. -/
def byteSamples (byte : Byte) : List Pad :=
  (List.range 8).map (fun i => .driven (if byte.getLsbD i then .high else .low)) ++ [.driven .high]

/-- `DISP_BYTE`: the nine samples, no marker, both lines High at the end. -/
theorem follow_dispByte {c : Config} (h : c.Admissible) (byte : Byte) (m : DispMonitor) :
    (dispBytePrims c byte).foldl (DispMonitor.follow c) m =
      ⟨.driven .high, .driven .high, m.bits ++ byteSamples byte, m.frames⟩ := by
  obtain ⟨hbits, hframes⟩ := follow_dispBits h byte (List.range 8) m
  rw [dispBytePrims, List.foldl_append, follow_dispClocked h, hbits, hframes]
  simp only [byteSamples, bitLevel, levelOfBit_eq_ite, List.append_assoc]

/-- `DISP_CMD` from driven lines: two markers, and between them the nine samples. -/
theorem follow_dispCmd {c : Config} (h : c.Admissible) (byte : Byte) (k d : Level) (bits : List Pad)
    (frames : List (List Pad)) :
    (dispCmdPrims c byte).foldl (DispMonitor.follow c) ⟨.driven k, .driven d, bits, frames⟩ =
      ⟨.driven .low, .driven .low, [],
        frames ++ [bits ++ if k = .low then [.driven d] else [], byteSamples byte]⟩ := by
  rw [dispCmdPrims, List.foldl_append, List.foldl_append, follow_dispStart h, follow_dispByte h, follow_dispStart h]
  simp

/-! ### The obligations -/

/-- A monitor whose pads are those of a state with both pins Output tracks it. -/
theorem DispMonitor.tracks_of_pads {c : Config} {m : DispMonitor} {b : Block} (hclk : b.isOutput c c.pinDispClk = true)
    (hdata : b.isOutput c c.pinDispData = true) (hmc : m.clock = b.pad c c.pinDispClk)
    (hmd : m.data = b.pad c c.pinDispData) : m.Tracks c b :=
  ⟨hclk, hdata, hmc.trans (if_pos hclk), hmd.trans (if_pos hdata)⟩

/-- A monitor that tracks a block is its two levels, its samples and its frames. -/
theorem DispMonitor.Tracks.eq {c : Config} {m : DispMonitor} {b : Block} (ht : m.Tracks c b) :
    m = ⟨.driven (b.latch c.pinDispClk), .driven (b.latch c.pinDispData), m.bits, m.frames⟩ := by
  rw [← ht.clock, ← ht.data]

theorem DispMonitor.watch_dispStart {c : Config} (h : c.Admissible) {m : DispMonitor} {b : Block} (ht : m.Tracks c b) :
    m.watch c (primPads c b (dispStartPrims c)) = ⟨.driven .low, .driven .low, [],
      m.frames ++ [m.bits ++ if b.latch c.pinDispClk = .low then [.driven (b.latch c.pinDispData)] else []]⟩ := by
  rw [DispMonitor.watch_primPads h (serial_dispStartPrims h) ht, ht.eq, follow_dispStart h]

theorem DispMonitor.watch_dispByte {c : Config} (h : c.Admissible) (byte : Byte) {m : DispMonitor} {b : Block}
    (ht : m.Tracks c b) : m.watch c (primPads c b (dispBytePrims c byte)) =
      ⟨.driven .high, .driven .high, m.bits ++ byteSamples byte, m.frames⟩ := by
  rw [DispMonitor.watch_primPads h (serial_dispBytePrims h byte) ht, follow_dispByte h]

theorem DispMonitor.watch_dispCmd {c : Config} (h : c.Admissible) (byte : Byte) {m : DispMonitor} {b : Block}
    (ht : m.Tracks c b) : m.watch c (primPads c b (dispCmdPrims c byte)) = ⟨.driven .low, .driven .low, [],
      m.frames ++ [m.bits ++ if b.latch c.pinDispClk = .low then [.driven (b.latch c.pinDispData)] else [],
        byteSamples byte]⟩ := by
  rw [DispMonitor.watch_primPads h (serial_dispCmdPrims h byte) ht, ht.eq, follow_dispCmd h]

/-- The pad events of `DISP_START` by the levels of the two lines at entry (R172). -/
theorem primPads_dispStart {c : Config} (h : c.Admissible) {b : Block} (hclk : b.isOutput c c.pinDispClk = true)
    (hdata : b.isOutput c c.pinDispData = true) :
    primPads c b (dispStartPrims c) =
      edgeEvents c.pinDispClk (b.latch c.pinDispClk) .high ++ edgeEvents c.pinDispData (b.latch c.pinDispData) .high ++
      [.delay 1, .change c.pinDispData (.driven .high) (.driven .low), .delay 1,
       .change c.pinDispClk (.driven .high) (.driven .low), .delay 1] := by
  have hne := dispPins_distinct h
  have hpc := pinDispClk_lt_58 h
  have hpd := pinDispData_lt_58 h
  simp [dispStartPrims, dispEdgePrims, primPads_setLevel h, primPads_delay, primPads_nil, padChanges_edgeEvents,
    withLatch_latch, hpc, hpd, hclk, hdata, hne, hne.symm, edgeEvents]

/-- Settles O52: the pad events of `primPads_dispStart` and the monitor's view of them. -/
theorem dispStartPadEvents : Obligations.DispStartPadEvents := by
  intro s h hclk hdata dc dd up down es
  have hpads : primPads s.cfg s.block (dispStartPrims s.cfg) = es := by
    rw [primPads_dispStart h.cfg hclk hdata]
    simp only [es, dc, dd, up, down]
    cases s.block.latch s.cfg.pinDispClk <;> cases s.block.latch s.cfg.pinDispData <;> rfl
  refine ⟨_, exec_dispStart_ready h, primBlock_dispStart h.cfg s.block, ?_, fun m hmc hmd => ?_⟩
  · rw [afterPrims_padTrace, hpads]
  · rw [← hpads, DispMonitor.watch_dispStart h.cfg (DispMonitor.tracks_of_pads hclk hdata hmc hmd)]
    simp [DispMonitor.markers]

/-- Settles O54: the levels written to the clock, and the monitor's nine samples. -/
theorem dispByteEdges : Obligations.DispByteEdges := by
  intro s byte m h hclk hdata hmc hmd
  have hwatch := DispMonitor.watch_dispByte h.cfg byte (DispMonitor.tracks_of_pads hclk hdata hmc hmd)
  refine ⟨_, _, exec_dispByte_ready h byte, primBlock_dispByte h.cfg s.block byte, afterPrims_padTrace s _, ?_, ?_, ?_⟩
  · rw [rises_eq_countP, padEdges_primPads h.cfg (serial_dispBytePrims h.cfg byte) hclk, writesTo_clk_dispByte h.cfg]
    cases s.block.latch s.cfg.pinDispClk <;> decide
  · rw [hwatch]
  · rw [hwatch, byteSamples, List.append_assoc]

theorem rises_clk_dispCmd {c : Config} (h : c.Admissible) (byte : Byte) {b : Block}
    (ho : b.isOutput c c.pinDispClk = true) :
    rises c.pinDispClk (primPads c b (dispCmdPrims c byte)) = if b.latch c.pinDispClk = .low then 10 else 9 := by
  rw [rises_eq_countP, padEdges_primPads h (serial_dispCmdPrims h byte) ho, writesTo_clk_dispCmd h]
  cases b.latch c.pinDispClk <;> decide

/-- A delay of one unit, or a level write to one of the two lines. -/
def DispPrim (c : Config) (e : PrimEvent) : Prop :=
  e = .delay 1 ∨ ∃ l, e = .setLevel c.pinDispClk l ∨ e = .setLevel c.pinDispData l

theorem dispPrim_dispClocked (c : Config) (l : Level) : ∀ e ∈ dispClockedPrims c l, DispPrim c e := by
  simp [dispClockedPrims, dispEdgePrims, DispPrim]

theorem dispPrim_dispStart (c : Config) : ∀ e ∈ dispStartPrims c, DispPrim c e := by
  simp [dispStartPrims, dispEdgePrims, DispPrim]

theorem dispPrim_dispCmd (c : Config) (byte : Byte) : ∀ e ∈ dispCmdPrims c byte, DispPrim c e := by
  have hbits : ∀ e ∈ (List.range 8).flatMap fun i => dispClockedPrims c (bitLevel byte i), DispPrim c e := by
    intro e he
    obtain ⟨i, -, hi⟩ := List.mem_flatMap.mp he
    exact dispPrim_dispClocked c _ e hi
  simp only [dispCmdPrims, dispBytePrims, List.forall_mem_append]
  exact ⟨⟨dispPrim_dispStart c, hbits, dispPrim_dispClocked c .high⟩, dispPrim_dispStart c⟩

theorem dispStartPrims_counts (c : Config) :
    (dispStartPrims c).length = 7 ∧ (dispStartPrims c).count (.delay 1) = 3 := by
  simp [dispStartPrims, dispEdgePrims]

theorem dispClockedPrims_counts (c : Config) (l : Level) :
    (dispClockedPrims c l).length = 6 ∧ (dispClockedPrims c l).count (.delay 1) = 3 := by
  simp [dispClockedPrims, dispEdgePrims]

/-- 68 events, 33 of them delays (R175, R180). -/
theorem dispCmdPrims_counts (c : Config) (byte : Byte) :
    (dispCmdPrims c byte).length = 68 ∧ (dispCmdPrims c byte).count (.delay 1) = 33 := by
  simp [dispCmdPrims, dispBytePrims, dispStartPrims_counts, dispClockedPrims_counts, List.count_flatMap,
    Function.comp_def]

/-- Settles O56: the three parts of the command, their levels, edges and samples together. -/
theorem dispCmdFrame : Obligations.DispCmdFrame := by
  intro s byte m h hclk hdata hmc hmd entryLow
  have hwatch := DispMonitor.watch_dispCmd h.cfg byte (DispMonitor.tracks_of_pads hclk hdata hmc hmd)
  obtain ⟨hlength, hcount⟩ := dispCmdPrims_counts s.cfg byte
  exact ⟨_, _, _, exec_dispCmd_ready h byte, rfl, hlength, hcount, dispPrim_dispCmd s.cfg byte,
    primBlock_dispCmd h.cfg s.block byte, afterPrims_padTrace s _, rises_clk_dispCmd h.cfg byte hclk,
    congrArg DispMonitor.frames hwatch, congrArg DispMonitor.bits hwatch⟩

/-- The delay units of a list of level writes and delays: those `State.afterPrims` counts. -/
def primUnits (c : Config) (ps : List PrimEvent) : Nat := delayUnits (ps.flatMap (primBus c))

theorem primUnits_append (c : Config) (ps qs : List PrimEvent) :
    primUnits c (ps ++ qs) = primUnits c ps + primUnits c qs := by
  simp [primUnits, delayUnits_append]

theorem primUnits_dispStart (c : Config) : primUnits c (dispStartPrims c) = 3 := rfl

theorem primUnits_dispClocked (c : Config) (l : Level) : primUnits c (dispClockedPrims c l) = 3 := rfl

theorem primUnits_dispBits (c : Config) (byte : Byte) (is : List Nat) :
    primUnits c (is.flatMap fun i => dispClockedPrims c (bitLevel byte i)) = 3 * is.length := by
  induction is with
  | nil => rfl
  | cons i is ih =>
    rw [List.flatMap_cons, primUnits_append, primUnits_dispClocked, ih, List.length_cons]
    omega

theorem primUnits_dispByte (c : Config) (byte : Byte) : primUnits c (dispBytePrims c byte) = 27 := by
  rw [dispBytePrims, primUnits_append, primUnits_dispBits, primUnits_dispClocked, List.length_range]

theorem primUnits_dispCmd (c : Config) (byte : Byte) : primUnits c (dispCmdPrims c byte) = 33 := by
  rw [dispCmdPrims, primUnits_append, primUnits_append, primUnits_dispStart, primUnits_dispByte]

/-- Settles O57: the delays of the three listings counted. -/
theorem displayDelayCounts : Obligations.DisplayDelayCounts := by
  intro s byte h
  exact ⟨⟨_, exec_dispStart_ready h, congrArg (s.elapsedUnits + ·) (primUnits_dispStart s.cfg)⟩,
    ⟨_, exec_dispByte_ready h byte, congrArg (s.elapsedUnits + ·) (primUnits_dispByte s.cfg byte)⟩,
    ⟨_, exec_dispCmd_ready h byte, congrArg (s.elapsedUnits + ·) (primUnits_dispCmd s.cfg byte)⟩⟩

/-! ### The number of micro-operations (R110, R161) -/

theorem length_srEdge (c : Config) (i p : Nat) (l : Level) :
    (srEdge c i p l).length = if c.srEdgeDelay = 0 then 1 else 2 := by
  by_cases he : c.srEdgeDelay = 0 <;> simp [srEdge, microDelay, he]

theorem length_expandSrWrite (c : Config) (byte : Byte) :
    (expandSrWrite c byte).length = if c.srEdgeDelay = 0 then 26 else 52 := by
  by_cases he : c.srEdgeDelay = 0 <;> simp [expandSrWrite, srBit, length_srEdge, he]

theorem length_expandOpen (e : Env) : (expandOpen e).length = 1 := by
  unfold expandOpen
  split <;> rfl

/-- Settles O58: the length of each expansion. -/
theorem microOperationCounts : Obligations.MicroOperationCounts := by
  intro c e i
  cases i with
  | openIface => exact length_expandOpen e
  | setFunction pin fn => rfl
  | pinSet pin => rfl
  | pinClr pin => rfl
  | getLevel pin => rfl
  | initPins => rfl
  | closeIface => rfl
  | srWrite byte => exact length_expandSrWrite c byte
  | dispStart => exact length_expandDispStart c
  | dispByte byte => exact length_expandDispByte c byte
  | dispCmd byte => exact length_expandDispCmd c byte

end Sys2Proof.Machine
end
